-- ==== Sys2Proof/Word.lean ====
section
/-! DEFINITION. The word types of the block and the sizes of its buffers (00_scope.md R7, R10, R11): every value is unsigned and bit 0 is its
least significant bit. -/

namespace Sys2Proof

/-- One byte of the Source stream or of CHUNK (10_state.md R35, R41). -/
abbrev Byte := BitVec 8

/-- A host register as the host sees it, 32 bits, whole words only (10_state.md R20). -/
abbrev Word := BitVec 32

/-- An op word (30_encoding.md R65). -/
abbrev OpWord := BitVec 16

/-- A PixelValue, in [0,3]: bit 0 from the low bitplane, bit 1 from the high bitplane (00_scope.md glossary,
20_memory.md R49). -/
abbrev Pixel := BitVec 2

/-- A palette entry: red in [23:16], green in [15:8], blue in [7:0] (10_state.md R22). -/
abbrev Rgb := BitVec 24

/-- The palette: `PAL_N` = 4 entries, entry `k` for PixelValue `k` (00_scope.md R7, 10_state.md R22). -/
abbrev Palette := Vector Rgb 4

/-- CHUNK: `STRIP_BYTES` = 16 tiles × 16 bytes = 256 bytes, 8 + 8 per tile (00_scope.md R7, 10_state.md R35). -/
abbrev StripChunk := Vector Byte 256

/-- SLICE: `TILE_W` = 8 pixels, left to right (00_scope.md R7, 10_state.md R36). -/
abbrev Slice := Vector Pixel 8

/-- LINE: `LINE_W` = 16 tiles × 8 pixels = 128 pixels (00_scope.md R7, 10_state.md R37). -/
abbrev LineBuf := Vector Pixel 128

end Sys2Proof
end

