-- ==== Sys2Proof/Config.lean ====
section
/-! DEFINITION. What is fixed for one machine: the open parameter LEN_BITS (00_scope.md R9), the open parameter REG_BASE (20_memory.md R56) and the default palette (10_state.md R22). -/

namespace Sys2Proof

/-- LEN_BITS, the width in bits of LEN: an open parameter with 9 ≤ LEN_BITS ≤ 32 (00_scope.md R9). The model takes
it as an argument: State carries one, no step changes it, and a statement about every state is about every LEN_BITS. -/
structure LenBits where
  bits : Nat
  nine_le : 9 ≤ bits
  le_thirtyTwo : bits ≤ 32
deriving DecidableEq, Repr

/-- LEN_BITS = 32, the width 95_test_vectors.md assumes. DESIGN CHOICE: the value State.reset carries (log entry 1). -/
def LenBits.full : LenBits := ⟨32, by decide, by decide⟩

/-- LEN_BITS = 9, the least width R9 allows. -/
def LenBits.least : LenBits := ⟨9, by decide, by decide⟩

/-- The width of NSTRIPS and STRIP, LEN_BITS − 8 (10_state.md R29, R30). -/
def LenBits.stripBits (p : LenBits) : Nat := p.bits - 8

/-- The width of LINES, of Header.height and of Scanline.row, LEN_BITS − 5 (10_state.md R31, 43_image_assembler.md R107). -/
def LenBits.lineBits (p : LenBits) : Nat := p.bits - 5

namespace Config

/-- The default gray ramp, the reset value of PAL0 to PAL3 (10_state.md R22). -/
def grayRamp : Palette := #v[0x000000#24, 0x555555#24, 0xAAAAAA#24, 0xFFFFFF#24]

/-- REG_BASE: where the register block sits in a system address space, left to the platform (20_memory.md R56). Free:
it has no value here, and no step reads it, because every host access names a register by its offset (00_scope.md R12). -/
opaque regBase : Nat

/-- The platform's word address of the register at offset `off` (20_memory.md R56: offsets are relative to REG_BASE). -/
def regAddress (off : Nat) : Nat := regBase + off

end Config

end Sys2Proof
end

