-- ==== Sys2Proof/Syntax.lean ====
section
/-! DEFINITION. The operation set CHRDEC-OPS 1 (30_encoding.md R67, spec/opcode_table.json), and the lines of the
spec's own assembler notation, pseudo-operations among them (30_encoding.md R73, R74). -/

namespace Sys2Proof

/-- The seven operations of the opcode table. The operands of DECODE_SLICE are immediates whose widths hold exactly
the source's ranges (30_encoding.md R68). -/
inductive Instr where
  /-- START, 44_control.md R121. -/
  | start
  /-- EMIT_HEADER, 43_image_assembler.md R111. -/
  | emitHeader
  /-- READ_STRIP, 41_tile_strip_reader.md R88. -/
  | readStrip
  /-- DECODE_SLICE cx, py, 42_bitplane_decoder.md R93: tile column `cx`, strip-local pixel row `py`. -/
  | decodeSlice (cx : BitVec 4) (py : BitVec 3)
  /-- APPEND_SLICE, 43_image_assembler.md R103. -/
  | appendSlice
  /-- EMIT_SCANLINE, 43_image_assembler.md R109. -/
  | emitScanline
  /-- FINISH, 44_control.md R124. -/
  | finish
deriving DecidableEq, Repr

/-- One line of the assembler notation (30_encoding.md R73, R74). Its operands are the numbers as written, so a line
can be ill-formed where an `Instr` cannot. -/
inductive AsmLine where
  | start
  | emitHeader
  | readStrip
  | decodeSlice (cx py : Nat)
  | appendSlice
  | emitScanline
  | finish
  /-- `BUILD_SCANLINE py`: 33 operations (R74). -/
  | buildScanline (py : Nat)
  /-- `CONVERT`: the canonical schedule for the current R (R74). -/
  | convert
deriving DecidableEq, Repr

end Sys2Proof
end

