-- ==== Sys2Proof/WellFormed.lean ====
section
/-! DEFINITION. The operand ranges of 30_encoding.md R68: `cx` in [0,15] and `py` in [0,7]. An `Instr` carries its
operands at the width of their fields, so every `Instr` passes (R68: "no out-of-range operand can be encoded"); a line
of the assembler notation can fail, and `AsmLine.wellFormed` refuses it. -/

namespace Sys2Proof

/-- The ranges of R68, asked of an operation. -/
def Instr.wellFormed : Instr → Bool
  | .start => true
  | .emitHeader => true
  | .readStrip => true
  | .decodeSlice cx py => decide (cx.toNat ≤ 15) && decide (py.toNat ≤ 7)
  | .appendSlice => true
  | .emitScanline => true
  | .finish => true

/-- The ranges of R68, asked of a line of the assembler notation (R73, R74). -/
def AsmLine.wellFormed : AsmLine → Bool
  | .start => true
  | .emitHeader => true
  | .readStrip => true
  | .decodeSlice cx py => decide (cx ≤ 15) && decide (py ≤ 7)
  | .appendSlice => true
  | .emitScanline => true
  | .finish => true
  | .buildScanline py => decide (py ≤ 7)
  | .convert => true

end Sys2Proof
end

