-- ==== Sys2Proof/Decode.lean ====
section
/-! DEFINITION. Decode and encode of op words (30_encoding.md R65 to R71), the opcode table as rows of match and mask,
and the expansion of the assembler notation (R73, R74). -/

namespace Sys2Proof

/-- Why a word is Illegal (30_encoding.md R71). Both reasons raise the same ILLEGAL_OPERATION. -/
inductive DecodeError where
  /-- Opcode 0x0 or 0x8 to 0xF. -/
  | unassignedOpcode
  /-- A non-zero reserved bit. -/
  | reservedBits
deriving DecidableEq, Repr

/-- The opcode field `OP = w[15:12]` (R66). -/
def opField (w : OpWord) : BitVec 4 := w.extractLsb' 12 4

/-- The operand field `cx = w[11:8]` (R68). -/
def cxField (w : OpWord) : BitVec 4 := w.extractLsb' 8 4

/-- The operand field `py = w[6:4]` (R68). -/
def pyField (w : OpWord) : BitVec 3 := w.extractLsb' 4 3

/-- The reserved bits of format N are zero: `w[11:0] = 0` (R66). -/
def reservedZeroN (w : OpWord) : Bool := w.extractLsb' 0 12 == 0#12

/-- The reserved bits of format D are zero: `w[7] = 0` and `w[3:0] = 0` (R66). -/
def reservedZeroD (w : OpWord) : Bool := !w.getLsbD 7 && w.extractLsb' 0 4 == 0#4

/-- The operations of format N by opcode (R67). -/
def formatN? (op : BitVec 4) : Option Instr :=
  match op.toNat with
  | 0x1 => some .start
  | 0x2 => some .emitHeader
  | 0x3 => some .readStrip
  | 0x5 => some .appendSlice
  | 0x6 => some .emitScanline
  | 0x7 => some .finish
  | _ => none

/-- `Decode(w)`, total on every 16-bit word (R70). -/
def decode (w : OpWord) : Except DecodeError Instr :=
  if opField w = 0x4#4 then
    if reservedZeroD w then .ok (.decodeSlice (cxField w) (pyField w)) else .error .reservedBits
  else
    match formatN? (opField w) with
    | some i => if reservedZeroN w then .ok i else .error .reservedBits
    | none => .error .unassignedOpcode

/-- The op word of an operation (R67): format N words are fixed, format D is `0x4000 | cx << 8 | py << 4`. -/
def encode : Instr → OpWord
  | .start => 0x1000#16
  | .emitHeader => 0x2000#16
  | .readStrip => 0x3000#16
  | .decodeSlice cx py => 0x4#4 ++ cx ++ 0#1 ++ py ++ 0#4
  | .appendSlice => 0x5000#16
  | .emitScanline => 0x6000#16
  | .finish => 0x7000#16

/-- A row of spec/opcode_table.json: a word `w` belongs to the row when `w &&& mask = bits`. -/
structure TableRow where
  mnemonic : String
  bits : OpWord
  mask : OpWord
deriving DecidableEq, Repr

/-- The row of the opcode table an operation stands for. -/
def tableRow : Instr → TableRow
  | .start => ⟨"START", 0x1000#16, 0xFFFF#16⟩
  | .emitHeader => ⟨"EMIT_HEADER", 0x2000#16, 0xFFFF#16⟩
  | .readStrip => ⟨"READ_STRIP", 0x3000#16, 0xFFFF#16⟩
  | .decodeSlice _ _ => ⟨"DECODE_SLICE", 0x4000#16, 0xF08F#16⟩
  | .appendSlice => ⟨"APPEND_SLICE", 0x5000#16, 0xFFFF#16⟩
  | .emitScanline => ⟨"EMIT_SCANLINE", 0x6000#16, 0xFFFF#16⟩
  | .finish => ⟨"FINISH", 0x7000#16, 0xFFFF#16⟩

/-- spec/opcode_table.json, row by row. -/
def opcodeTable : List TableRow :=
  [tableRow .start, tableRow .emitHeader, tableRow .readStrip, tableRow (.decodeSlice 0 0), tableRow .appendSlice,
    tableRow .emitScanline, tableRow .finish]

/-- All 134 operations (R70): 6 of format N and 16 × 8 of format D. -/
def allInstrs : List Instr :=
  [.start, .emitHeader, .readStrip, .appendSlice, .emitScanline, .finish] ++
    (List.range 16).flatMap fun cx => (List.range 8).map fun py => .decodeSlice (BitVec.ofNat 4 cx) (BitVec.ofNat 3 py)

/-- The op word made of the low `nbits` bits of `w`, every bit above them zero (every op word is 16 bits, R65). -/
def tableWord (nbits w : Nat) : OpWord := BitVec.ofNat 16 (w % 2 ^ nbits)

/-- The operation the decoder reads from an instruction whose bits are `w`, `nbits` of them. The hardware keeps no
instruction in memory (20_memory.md R62): a word reaches the decoder whole, through CMD. -/
def decodeTableWord (nbits w : Nat) : Option Instr :=
  match decode (tableWord nbits w) with
  | .ok i => some i
  | .error _ => none

/-- `BUILD_SCANLINE py` (R74): 16 pairs DECODE_SLICE, APPEND_SLICE and then EMIT_SCANLINE. -/
def scanlineSchedule (py : BitVec 3) : List Instr :=
  ((List.range 16).flatMap fun cx => [.decodeSlice (BitVec.ofNat 4 cx) py, .appendSlice]) ++ [.emitScanline]

/-- One strip of the canonical schedule: READ_STRIP and its 8 scanlines (43_image_assembler.md R117). -/
def stripSchedule : List Instr :=
  .readStrip :: (List.range 8).flatMap fun py => scanlineSchedule (BitVec.ofNat 3 py)

/-- The canonical schedule for `r` strips (43_image_assembler.md R117). -/
def canonicalSchedule (r : Nat) : List Instr :=
  [.start, .emitHeader] ++ (List.range r).flatMap (fun _ => stripSchedule) ++ [.finish]

/-- The operations a line of the notation stands for, `r` the number of strips CONVERT expands for (R74). -/
def AsmLine.expand (r : Nat) : AsmLine → List Instr
  | .start => [.start]
  | .emitHeader => [.emitHeader]
  | .readStrip => [.readStrip]
  | .decodeSlice cx py => [.decodeSlice (BitVec.ofNat 4 cx) (BitVec.ofNat 3 py)]
  | .appendSlice => [.appendSlice]
  | .emitScanline => [.emitScanline]
  | .finish => [.finish]
  | .buildScanline py => scanlineSchedule (BitVec.ofNat 3 py)
  | .convert => canonicalSchedule r

/-- The op words of a line, or none for a line R68 refuses. -/
def AsmLine.assemble (r : Nat) (a : AsmLine) : Option (List OpWord) :=
  if a.wellFormed then some ((a.expand r).map encode) else none

end Sys2Proof
end

