-- ==== Sys2Proof/Machine/State.lean ====
section
/-! DEFINITION. The state of the block (10_state.md R20 to R45) with the Source, the Sink's history and the host's
pending accesses beside it (00_scope.md R4), its reset value, and the reasons a step can stop. -/

namespace Sys2Proof.Machine

/-- PHASE (10_state.md R26). -/
inductive Phase where
  | idle
  | run
  | done
  | error
deriving DecidableEq, Repr

/-- ERR (10_state.md R27). Values 6 to 15 are never written, so they are no constructors (93_implementation_defined.md U16). -/
inductive ErrCode where
  | none
  | invalidInputSize
  | streamTruncation
  | illegalOperation
  | sequenceError
  | configWriteWhileBusy
deriving DecidableEq, Repr

/-- The Header record (43_image_assembler.md R107). `height` is `LEN_BITS − 5` bits wide, kept in a 32-bit word. -/
structure Header where
  width : BitVec 16
  height : Word
  depth : BitVec 2
  palette : Palette
deriving DecidableEq, Repr

/-- The Scanline record (43_image_assembler.md R107). `row` is `LEN_BITS − 5` bits wide, kept in a 32-bit word. -/
structure Scanline where
  row : Word
  pixels : LineBuf
deriving DecidableEq, Repr

/-- A record handed to the Sink (43_image_assembler.md R106). -/
inductive Record where
  | header (h : Header)
  | scanline (l : Scanline)
deriving DecidableEq, Repr

/-- One entry of the outside world's script: what happens at one step (20_memory.md R58, 44_control.md R130). Every
interleaving of host accesses with the Core's steps is one script. -/
inductive Input where
  /-- The host reads the register at `off`: `MemRead(off, 4)` (44_control.md R127). -/
  | read (off : Nat)
  /-- The host writes `v` to the register at `off`: `MemWrite(off, 4, v)` (44_control.md R127). -/
  | write (off : Nat) (v : Word)
  /-- The host does nothing and the Core takes its turn. -/
  | coreTurn
  /-- The reset event, which begins a new launch with the Source `src` (70_reset_and_hazards.md R154, R155). -/
  | reset (src : List Byte)
deriving DecidableEq, Repr

/-- The machine. A register of `LEN_BITS`, `LEN_BITS − 8` or `LEN_BITS − 5` bits is kept in a 32-bit word whose upper
bits are zero: every write cuts to the width, and `State.Fits` (Safety.lean) is the invariant. -/
structure State where
  /-- The open parameter LEN_BITS (00_scope.md R9). No step changes it. -/
  lenBits : LenBits
  /-- LEN, `LEN_BITS` bits (10_state.md R21). -/
  len : Word
  /-- PAL0 to PAL3, 24 bits each (10_state.md R22). -/
  pal : Palette
  /-- CTRL.AUTO, 1 bit (10_state.md R23). -/
  auto : Bool
  /-- STATUS.PHASE, 2 bits (10_state.md R26). -/
  phase : Phase
  /-- STATUS.ERR, 4 bits (10_state.md R27). -/
  err : ErrCode
  /-- ERR_OP, 16 bits (10_state.md R28). -/
  errOp : OpWord
  /-- NSTRIPS, `LEN_BITS − 8` bits (10_state.md R29). -/
  nstrips : Word
  /-- STRIP, `LEN_BITS − 8` bits (10_state.md R30). -/
  strip : Word
  /-- LINES, `LEN_BITS − 5` bits (10_state.md R31). -/
  lines : Word
  /-- LINE_LEN, 8 bits (10_state.md R32). -/
  lineLen : BitVec 8
  /-- CUR, `LEN_BITS` bits (10_state.md R33). -/
  cur : Word
  /-- HDR_SENT, 1 bit (10_state.md R34). -/
  hdrSent : Bool
  /-- CHUNK, 256 bytes (10_state.md R35). It holds no value while `chunkValid` is false (00_scope.md R14). -/
  chunk : StripChunk
  /-- CHUNK_VALID, 1 bit (10_state.md R35). -/
  chunkValid : Bool
  /-- SLICE, 8 PixelValues (10_state.md R36). It holds no value while `sliceValid` is false (00_scope.md R14). -/
  slice : Slice
  /-- SLICE_VALID, 1 bit (10_state.md R36). -/
  sliceValid : Bool
  /-- LINE, 128 PixelValues (10_state.md R37). Entries from `lineLen` up hold no value (00_scope.md R14). -/
  line : LineBuf
  /-- SRC, the Source's bytes, fixed at launch (10_state.md R41). -/
  src : List Byte
  /-- OUT, the records handed to the Sink, in emission order (10_state.md R42). -/
  out : List Record
  /-- The model's own field: what the outside world does at the coming steps, the next first (log entry 3). -/
  inputs : List Input
  /-- The model's own field: the values the host's reads returned, in order (log entry 4). -/
  replies : List Word
deriving DecidableEq, Repr

/-- The block right after reset (10_state.md R45), launched with LEN_BITS = `p`, the Source `src` and the script
`inputs`. The contents of CHUNK, SLICE and LINE hold no value after reset; the zeros here are log entry 2's. R45 says of
OUT only that reset leaves it unchanged, and the machine's first state has no state before it. DESIGN CHOICE: OUT is
empty here, no record having been handed over before (log entry 18). -/
def State.launch (p : LenBits) (src : List Byte) (inputs : List Input) : State where
  lenBits := p
  len := 0
  pal := Config.grayRamp
  auto := true
  phase := .idle
  err := .none
  errOp := 0
  nstrips := 0
  strip := 0
  lines := 0
  lineLen := 0
  cur := 0
  hdrSent := false
  chunk := Vector.replicate 256 0
  chunkValid := false
  slice := Vector.replicate 8 0
  sliceValid := false
  line := Vector.replicate 128 0
  src := src
  out := []
  inputs := inputs
  replies := []

/-- The machine right after reset: LEN_BITS = 32 (log entry 1), an empty Source and an empty script (log entry 3). -/
def State.reset : State := State.launch LenBits.full [] []

/-- Why the machine stops. The block's own faults (60_exceptions.md R136) are no stops: they are states with
PHASE = ERROR. -/
inductive Fault where
  /-- SrcRead with CUR past the end of the Source, where `SRC[CUR]` does not exist and EOS (`CUR = length(SRC)`) does
  not hold either (41_tile_strip_reader.md R85). Raised by READ_STRIP, in no state a run reaches. Safe: it stops where
  the spec gives no effect. -/
  | sourceCursorPastEnd
deriving DecidableEq, Repr

/-- Why an instruction has no meaning. -/
inductive Refusal where
  /-- An instruction of the opcode table without a meaning, by its mnemonic. No arm of `exec` answers it. Safe. -/
  | notModelled (mnemonic : String)
deriving DecidableEq, Repr

end Sys2Proof.Machine
end

