-- ==== Sys2Proof/Machine/Operands.lean ====
section
/-! DEFINITION. Operand forms: cutting to a register's width, the CHUNK addresses of DECODE_SLICE, DecodeRow, the
pixels of LINE, the header's values and Resolve. -/

namespace Sys2Proof.Machine

/-- `v[n−1:0]`, zero-extended to 32 bits: how a register of `n` bits keeps a value (10_state.md R20, R21). -/
def truncTo (n : Nat) (v : Word) : Word := (v.setWidth n).setWidth 32

/-- The tile's base offset `16 × cx`, 8 bits (42_bitplane_decoder.md R93, step 1). -/
def tileBase (cx : BitVec 4) : BitVec 8 := 16#8 * cx.setWidth 8

/-- The low plane's CHUNK address `base + py`, 8 bits (R93, step 2). -/
def loAddr (cx : BitVec 4) (py : BitVec 3) : BitVec 8 := tileBase cx + py.setWidth 8

/-- The high plane's CHUNK address `base + 8 + py`, 8 bits (R93, step 2). -/
def hiAddr (cx : BitVec 4) (py : BitVec 3) : BitVec 8 := tileBase cx + 8#8 + py.setWidth 8

/-- The byte at an 8-bit CHUNK address: every such address is in CHUNK[0..255] (42_bitplane_decoder.md R99). -/
def chunkByte (s : State) (a : BitVec 8) : Byte := s.chunk[a.toNat]'(a.isLt)

/-- `(lo & 1) | ((hi & 1) << 1)`, 2 bits (42_bitplane_decoder.md R94, step 3). -/
def lsbPixel (lo hi : Byte) : Pixel := ((lo &&& 1#8) ||| ((hi &&& 1#8) <<< 1)).setWidth 2

/-- The first `n` values `t[x]` of R94's step 3, least significant bit first. -/
def lsbFirst : Nat → Byte → Byte → List Pixel
  | 0, _, _ => []
  | n + 1, lo, hi => lsbPixel lo hi :: lsbFirst n (lo >>> 1) (hi >>> 1)

/-- `DecodeRow(lo, hi)`, the loop of R94: step 3's eight values, reversed by step 4. -/
def decodeRow (lo hi : Byte) : Slice :=
  ⟨(lsbFirst 8 lo hi).reverse.toArray, by simp [lsbFirst]⟩

/-- LINE (`pixels`) after `SLICE` is written at `LINE[n..n+7]` (43_image_assembler.md R103). -/
def writeSlice (pixels : LineBuf) (n : Nat) (slice : Slice) :
    LineBuf :=
  Vector.ofFn fun j : Fin 128 =>
    if h : n ≤ j.val ∧ j.val < n + 8 then slice[j.val - n]'(by omega) else pixels[j.val]'(j.isLt)

/-- The header EMIT_HEADER supplies (43_image_assembler.md R111, R112). -/
def imageHeader (s : State) : Header where
  width := 128
  height := truncTo s.lenBits.lineBits (8 * s.nstrips)
  depth := 2
  palette := s.pal

/-- `Resolve(palette, v)` (43_image_assembler.md R110). The Sink applies it, not the block. -/
def resolve (palette : Palette) (v : Pixel) : Rgb := palette[v.toNat]'(v.isLt)

end Sys2Proof.Machine
end

