-- ==== Sys2Proof/Machine/Flags.lean ====
section
/-! DEFINITION. The block has no condition codes (10_state.md R40): its flags are HDR_SENT, CHUNK_VALID, SLICE_VALID
and the phase. Here are their places in STATUS (R25) and CTRL (R23), and the conditions the operations check. -/

namespace Sys2Proof.Machine

/-- PHASE as STATUS[1:0] shows it (10_state.md R25). -/
def Phase.code : Phase → BitVec 2
  | .idle => 0
  | .run => 1
  | .done => 2
  | .error => 3

/-- ERR as STATUS[11:8] shows it (10_state.md R27). -/
def ErrCode.code : ErrCode → BitVec 4
  | .none => 0
  | .invalidInputSize => 1
  | .streamTruncation => 2
  | .illegalOperation => 3
  | .sequenceError => 4
  | .configWriteWhileBusy => 5

/-- STATUS (10_state.md R25), bits [31:12] and [7:5] zero. -/
def statusWord (s : State) : Word :=
  0#20 ++ s.err.code ++ 0#3 ++ BitVec.ofBool s.sliceValid ++ BitVec.ofBool s.chunkValid ++ BitVec.ofBool s.hdrSent ++
    s.phase.code

/-- CTRL (10_state.md R23), bits [31:1] zero. -/
def ctrlWord (s : State) : Word := 0#31 ++ BitVec.ofBool s.auto

/-- `PHASE = RUN` and `CTRL.AUTO = 1`: the sequencer owns the operation port (44_control.md R128). -/
def autoRun (s : State) : Bool := decide (s.phase = .run) && s.auto

/-- START's check fails: LEN is 0 or no multiple of 256 (44_control.md R121). -/
def badLength (s : State) : Bool := decide (s.len.toNat = 0) || decide (s.len.toNat % 256 ≠ 0)

/-- `LINES = 8 × STRIP`: every scanline of the strips read so far has been emitted (41_tile_strip_reader.md R88). -/
def stripDone (s : State) : Bool := decide (s.lines.toNat = 8 * s.strip.toNat)

/-- `LINE_LEN = 0` and `SLICE_VALID = 0`: no partly built scanline and no unappended slice (41_tile_strip_reader.md R88,
44_control.md R124). -/
def nothingPending (s : State) : Bool := decide (s.lineLen = 0) && !s.sliceValid

end Sys2Proof.Machine
end

