-- ==== Sys2Proof/Machine/Ops.lean ====
section
/-! DEFINITION. The operations every meaning shares: fault entry (60_exceptions.md R143), the phase gate
(44_control.md R126), precondition checks (R138), SrcRead (41_tile_strip_reader.md R85) and Emit (43_image_assembler.md
R106). There is no return from a fault to model beside its entry: ERROR is left only by reset (60_exceptions.md R146),
which is `resetEvent` in Machine/Agents.lean. -/

namespace Sys2Proof.Machine

/-- What an operation or an access answers. -/
abbrev Result := Host.Outcome State Fault Refusal

/-- `raise Fault(code, info)`: PHASE, ERR and ERR_OP, and nothing else (60_exceptions.md R143). -/
def raiseFault (code : ErrCode) (info : OpWord) (s : State) : State :=
  { s with phase := .error, err := code, errOp := info }

/-- The phase an operation needs: START needs IDLE, every other operation needs RUN (44_control.md R126). -/
def gatePhase : Instr → Phase
  | .start => .idle
  | .emitHeader => .run
  | .readStrip => .run
  | .decodeSlice _ _ => .run
  | .appendSlice => .run
  | .emitScanline => .run
  | .finish => .run

/-- The phase gate of 44_control.md R126 for a legal operation: no effect in ERROR, SEQUENCE_ERROR with the op word in
any other wrong phase, and `body` in the right one. -/
def throughGate (i : Instr) (s : State) (body : Result) : Result :=
  if s.phase = .error then .next s
  else if s.phase = gatePhase i then body
  else .next (raiseFault .sequenceError (encode i) s)

/-- One precondition of an operation: SEQUENCE_ERROR with the op word where it fails (60_exceptions.md R138). -/
def requiring (ok : Bool) (i : Instr) (s : State) (body : Result) : Result :=
  if ok then body else .next (raiseFault .sequenceError (encode i) s)

/-- What `SrcRead()` answers. -/
inductive SrcByte where
  /-- End-of-stream, CUR unchanged. -/
  | eos
  /-- The next byte, and CUR moved past it. -/
  | byte (b : Byte) (cur : Word)
  /-- CUR is past the end of the Source, where R85 has no answer (log entry 6). -/
  | pastEnd
deriving DecidableEq, Repr

/-- `SrcRead()` (41_tile_strip_reader.md R85), of LEN_BITS, SRC and CUR, the state it reads. -/
def srcRead (p : LenBits) (src : List Byte) (cur : Word) : SrcByte :=
  if cur.toNat = src.length then .eos
  else
    match src[cur.toNat]? with
    | some b => .byte b (truncTo p.bits (cur + 1))
    | none => .pastEnd

/-- What taking several bytes answers. -/
inductive Taken where
  /-- All of them, in order, and CUR moved past them. -/
  | full (bytes : List Byte) (cur : Word)
  /-- EOS came first: CUR past the bytes that were taken. -/
  | short (cur : Word)
  /-- SrcRead had no answer. -/
  | pastEnd
deriving DecidableEq, Repr

/-- `n` times SrcRead, stopping at the first that gives no byte (41_tile_strip_reader.md R88, R89). -/
def srcTake (p : LenBits) (src : List Byte) : Nat → Word → Taken
  | 0, cur => .full [] cur
  | n + 1, cur =>
    match srcRead p src cur with
    | .eos => .short cur
    | .pastEnd => .pastEnd
    | .byte b cur' =>
      match srcTake p src n cur' with
      | .full bytes cur'' => .full (b :: bytes) cur''
      | .short cur'' => .short cur''
      | .pastEnd => .pastEnd

/-- CHUNK filled with the 256 bytes taken (41_tile_strip_reader.md R88). -/
def chunkOf (bytes : List Byte) : StripChunk := Vector.ofFn fun i : Fin 256 => bytes.getD i.val 0

/-- `Emit(rec)`: one record appended to OUT (43_image_assembler.md R106). -/
def emit (rec : Record) (s : State) : State := { s with out := s.out ++ [rec] }

end Sys2Proof.Machine
end

