-- ==== Sys2Proof/Machine/BitplaneDecoder.lean ====
section
/-! DEFINITION. The bitplane decoder: DECODE_SLICE (42_bitplane_decoder.md). -/

namespace Sys2Proof.Machine

/-- DECODE_SLICE cx, py: decode one 8-pixel slice from CHUNK into SLICE (42_bitplane_decoder.md R93). -/
def execDecodeSlice (cx : BitVec 4) (py : BitVec 3) (s : State) : Result :=
  throughGate (.decodeSlice cx py) s <|
    requiring s.chunkValid (.decodeSlice cx py) s <|
    requiring (!s.sliceValid) (.decodeSlice cx py) s <|
    .next { s with
      slice := decodeRow (chunkByte s (loAddr cx py)) (chunkByte s (hiAddr cx py))
      sliceValid := true }

end Sys2Proof.Machine
end

