-- ==== Sys2Proof/Machine/Control.lean ====
section
/-! DEFINITION. The control operations START and FINISH (44_control.md). -/

namespace Sys2Proof.Machine

/-- What START writes once LEN has passed its check (44_control.md R121). -/
def beginConversion (s : State) : State :=
  { s with
    nstrips := truncTo s.lenBits.stripBits (BitVec.ofNat 32 (s.len.toNat / 256))
    strip := 0
    lines := 0
    lineLen := 0
    hdrSent := false
    chunkValid := false
    sliceValid := false
    phase := .run }

/-- START: check the input length and begin a conversion (44_control.md R121). -/
def execStart (s : State) : Result :=
  throughGate .start s <|
    if badLength s then .next (raiseFault .invalidInputSize (encode .start) s) else .next (beginConversion s)

/-- FINISH: end a conversion that has emitted every scanline (44_control.md R124). -/
def execFinish (s : State) : Result :=
  throughGate .finish s <|
    requiring s.hdrSent .finish s <|
    requiring (decide (s.strip = s.nstrips)) .finish s <|
    requiring (decide (s.lines.toNat = 8 * s.nstrips.toNat)) .finish s <|
    requiring (nothingPending s) .finish s <|
    .next { s with phase := .done }

end Sys2Proof.Machine
end

