-- ==== Sys2Proof/Machine/ImageAssembler.lean ====
section
/-! DEFINITION. The image assembler and raster formatter: APPEND_SLICE, EMIT_SCANLINE and EMIT_HEADER
(43_image_assembler.md). -/

namespace Sys2Proof.Machine

/-- APPEND_SLICE: concatenate SLICE onto the scanline being built (43_image_assembler.md R103). -/
def execAppendSlice (s : State) : Result :=
  throughGate .appendSlice s <|
    requiring s.sliceValid .appendSlice s <|
    requiring (decide (s.lineLen.toNat ≤ 120)) .appendSlice s <|
    .next { s with
      line := writeSlice s.line s.lineLen.toNat s.slice
      lineLen := s.lineLen + 8
      sliceValid := false }

/-- EMIT_SCANLINE: emit the completed scanline (43_image_assembler.md R109). LINE's entries hold no value afterwards,
which LINE_LEN = 0 says (00_scope.md R14). -/
def execEmitScanline (s : State) : Result :=
  throughGate .emitScanline s <|
    requiring (decide (s.lineLen.toNat = 128)) .emitScanline s <|
    requiring (decide (s.lines.toNat < 8 * s.strip.toNat)) .emitScanline s <|
    .next { emit (.scanline ⟨s.lines, s.line⟩) s with
      lines := truncTo s.lenBits.lineBits (s.lines + 1)
      lineLen := 0 }

/-- EMIT_HEADER: supply the image metadata to the Sink (43_image_assembler.md R111). -/
def execEmitHeader (s : State) : Result :=
  throughGate .emitHeader s <|
    requiring (!s.hdrSent) .emitHeader s <|
    .next { emit (.header (imageHeader s)) s with hdrSent := true }

end Sys2Proof.Machine
end

