-- ==== Sys2Proof/Machine/StripReader.lean ====
section
/-! DEFINITION. The tile-strip reader: READ_STRIP (41_tile_strip_reader.md). -/

namespace Sys2Proof.Machine

/-- The 256 reads of READ_STRIP and their end (41_tile_strip_reader.md R88, R89). On EOS the bytes taken stay consumed
and CHUNK_VALID stays 0; CHUNK itself is not written (60_exceptions.md R143, log entry 7). -/
def fillChunk (s : State) : Result :=
  match srcTake s.lenBits s.src 256 s.cur with
  | .full bytes cur =>
    .next { s with
      cur := cur
      chunk := chunkOf bytes
      chunkValid := true
      strip := truncTo s.lenBits.stripBits (s.strip + 1) }
  | .short cur => .next (raiseFault .streamTruncation (encode .readStrip) { s with cur := cur, chunkValid := false })
  | .pastEnd => .fault .sourceCursorPastEnd

/-- READ_STRIP: read the next tile strip into CHUNK (41_tile_strip_reader.md R88). -/
def execReadStrip (s : State) : Result :=
  throughGate .readStrip s <|
    requiring s.hdrSent .readStrip s <|
    requiring (decide (s.strip.toNat < s.nstrips.toNat)) .readStrip s <|
    requiring (stripDone s) .readStrip s <|
    requiring (nothingPending s) .readStrip s <|
    fillChunk s

end Sys2Proof.Machine
end

