-- ==== Sys2Proof/Machine/Dispatch.lean ====
section
/-! DEFINITION. One arm per operation of the opcode table, each a direct call of its meaning. -/

namespace Sys2Proof.Machine

def exec (i : Instr) (s : State) : Host.Outcome State Fault Refusal :=
  match i with
  | .start => Sys2Proof.Machine.execStart s
  | .emitHeader => Sys2Proof.Machine.execEmitHeader s
  | .readStrip => Sys2Proof.Machine.execReadStrip s
  | .decodeSlice cx py => Sys2Proof.Machine.execDecodeSlice cx py s
  | .appendSlice => Sys2Proof.Machine.execAppendSlice s
  | .emitScanline => Sys2Proof.Machine.execEmitScanline s
  | .finish => Sys2Proof.Machine.execFinish s

end Sys2Proof.Machine
end

