-- ==== Sys2Proof/Machine/HostPort.lean ====
section
/-! DEFINITION. The host's register accesses (10_state.md R20, 44_control.md R127 to R129) and the operation port CMD
(R128). -/

namespace Sys2Proof.Machine

/-- The registers of the host's map (10_state.md R20). -/
inductive Reg where
  | len
  | pal (k : Fin 4)
  | ctrl
  | cmd
  | status
  | errOp
  | nstrips
  | strip
  | lines
  | lineLen
  | cur
deriving DecidableEq, Repr

/-- The register at a word offset, none where the offset is unassigned (10_state.md R20). -/
def regAt (off : Nat) : Option Reg :=
  match off with
  | 0x00 => some .len
  | 0x01 => some (.pal 0)
  | 0x02 => some (.pal 1)
  | 0x03 => some (.pal 2)
  | 0x04 => some (.pal 3)
  | 0x05 => some .ctrl
  | 0x06 => some .cmd
  | 0x07 => some .status
  | 0x08 => some .errOp
  | 0x09 => some .nstrips
  | 0x0A => some .strip
  | 0x0B => some .lines
  | 0x0C => some .lineLen
  | 0x0D => some .cur
  | _ => none

/-- What a read of a register returns, zero-extended to 32 bits; CMD holds nothing and reads 0 (10_state.md R20, R24). -/
def regValue (s : State) : Reg → Word
  | .len => s.len
  | .pal k => (s.pal[k.val]'(k.isLt)).setWidth 32
  | .ctrl => ctrlWord s
  | .cmd => 0
  | .status => statusWord s
  | .errOp => s.errOp.setWidth 32
  | .nstrips => s.nstrips
  | .strip => s.strip
  | .lines => s.lines
  | .lineLen => s.lineLen.setWidth 32
  | .cur => s.cur

/-- `MemRead(off, 4)`: the register's value, and 0 at an unassigned offset (44_control.md R127). -/
def memRead (s : State) (off : Nat) : Word :=
  match regAt off with
  | some r => regValue s r
  | none => 0

/-- A write to LEN, PALk or CTRL: accepted in IDLE, CONFIG_WRITE_WHILE_BUSY with the offset in RUN and DONE, no effect
in ERROR (44_control.md R127, R129). -/
def configWrite (off : Nat) (s : State) (written : State) : Result :=
  match s.phase with
  | .idle => .next written
  | .run => .next (raiseFault .configWriteWhileBusy (BitVec.ofNat 16 off) s)
  | .done => .next (raiseFault .configWriteWhileBusy (BitVec.ofNat 16 off) s)
  | .error => .next s

/-- An illegal word at the gate: no effect in ERROR, else ILLEGAL_OPERATION with the word (44_control.md R126,
60_exceptions.md R137). -/
def illegalWord (w : OpWord) (s : State) : Result :=
  if s.phase = .error then .next s else .next (raiseFault .illegalOperation w s)

/-- `CmdWrite(w)`: one Core step (44_control.md R128). -/
def cmdWrite (w : OpWord) (s : State) : Result :=
  if autoRun s then .next (raiseFault .sequenceError w s)
  else
    match decode w with
    | .ok i => exec i s
    | .error _ => illegalWord w s

/-- `MemWrite(off, 4, v)` (44_control.md R127). -/
def memWrite (off : Nat) (v : Word) (s : State) : Result :=
  match regAt off with
  | some .len => configWrite off s { s with len := truncTo s.lenBits.bits v }
  | some (.pal k) => configWrite off s { s with pal := s.pal.set k.val (v.setWidth 24) k.isLt }
  | some .ctrl => configWrite off s { s with auto := v.getLsbD 0 }
  | some .cmd => cmdWrite (v.setWidth 16) s
  | some .status => .next s
  | some .errOp => .next s
  | some .nstrips => .next s
  | some .strip => .next s
  | some .lines => .next s
  | some .lineLen => .next s
  | some .cur => .next s
  | none => .next s

end Sys2Proof.Machine
end

