-- ==== Sys2Proof/Machine/Sequencer.lean ====
section
/-! DEFINITION. The built-in sequencer's choice (43_image_assembler.md R118). -/

namespace Sys2Proof.Machine

/-- `NextOp()` (43_image_assembler.md R118). -/
def nextOp (s : State) : Instr :=
  if s.hdrSent = false then .emitHeader
  else if s.lineLen.toNat = 128 then .emitScanline
  else if s.sliceValid then .appendSlice
  else if s.lines.toNat = 8 * s.strip.toNat ∧ s.lineLen.toNat = 0 then
    if s.strip.toNat < s.nstrips.toNat then .readStrip else .finish
  else .decodeSlice (BitVec.ofNat 4 (s.lineLen.toNat / 8)) (BitVec.ofNat 3 (s.lines.toNat % 8))

end Sys2Proof.Machine
end

