-- ==== Sys2Proof/Machine/Agents.lean ====
section
/-! DEFINITION. What one step of each agent does (00_scope.md R4, 20_memory.md R58): the Core's turn, a host access and
the reset event. -/

namespace Sys2Proof.Machine

/-- The Core's turn: the sequencer's operation in an automatic run (43_image_assembler.md R118). With no step enabled
(IDLE, DONE, ERROR, or AUTO = 0) the block waits and nothing changes (60_exceptions.md R153, log entry 5). -/
def coreTurn (s : State) : Result := if autoRun s then exec (nextOp s) s else .next s

/-- The reset event: every element at its value of 10_state.md R45, OUT kept, a new launch with the Source `src`
(70_reset_and_hazards.md R154, R155). LEN_BITS and the outside world's script and replies are no state of the block. -/
def resetEvent (src : List Byte) (s : State) : State :=
  { State.launch s.lenBits src s.inputs with out := s.out, replies := s.replies }

/-- One entry of the script, taken as one atomic step (20_memory.md R58). -/
def takeInput (e : Input) (s : State) : Result :=
  match e with
  | .read off => .next { s with replies := s.replies ++ [memRead s off] }
  | .write off v => memWrite off v s
  | .coreTurn => coreTurn s
  | .reset src => .next (resetEvent src s)

/-- The host about to issue the op word `w`: a CMD write stands first in the script, and an automatic run, in which the
sequencer owns the port, is switched to manual so that the write reaches the decoder (44_control.md R128, log entry 8). -/
def issueWord (w : OpWord) (s : State) : State :=
  { s with inputs := .write 0x06 (w.setWidth 32) :: s.inputs, auto := s.auto && decide (s.phase ≠ .run) }

end Sys2Proof.Machine
end

