-- ==== Sys2Proof/Machine/Step.lean ====
section
/-! DEFINITION. One step of the machine, and where a test's op word is placed so that the next step runs it. -/

namespace Sys2Proof.Machine

/-- One atomic step (20_memory.md R58): the next entry of the script, or the Core's turn when the script is empty. -/
def step (s : State) : Host.Outcome State Fault Refusal :=
  match s.inputs with
  | [] => coreTurn s
  | e :: rest => takeInput e { s with inputs := rest }

/-- `s` with the instruction of `nbits` bits `w` about to be issued through CMD, so that the next step decodes it and
runs it (log entry 8). -/
def State.withFetchWord (s : State) (nbits w : Nat) : State := issueWord (tableWord nbits w) s

end Sys2Proof.Machine
end

