-- ==== Sys2Proof/Safety.lean ====
section
/-! DEFINITION. The words statements use: the image as a function of the Source (42_bitplane_decoder.md R100), the
invariant of the states a run reaches (10_state.md R44 and what it rests on), the steps an automatic run still has to
take (43_image_assembler.md R119), what of a state holds a value (00_scope.md R14), and the host's boot order
(70_reset_and_hazards.md R157). -/

namespace Sys2Proof.Machine

/-- `{hi[7 − i], lo[7 − i]}`, lane `i` of DecodeRow (42_bitplane_decoder.md R95). -/
def lanePixel (lo hi : Byte) (i : Nat) : Pixel := BitVec.ofBool (hi.getLsbD (7 - i)) ++ BitVec.ofBool (lo.getLsbD (7 - i))

/-- `pixel(X, Y)` of the image the Source `src` holds (42_bitplane_decoder.md R100). -/
def imagePixel (src : List Byte) (x y : Nat) : Pixel :=
  lanePixel (src.getD (256 * (y / 8) + 16 * (x / 8) + y % 8) 0) (src.getD (256 * (y / 8) + 16 * (x / 8) + 8 + y % 8) 0)
    (x % 8)

/-- Row `y` of that image, 128 pixels from left to right. -/
def imageRow (src : List Byte) (y : Nat) : LineBuf := Vector.ofFn fun x : Fin 128 => imagePixel src x.val y

/-- The records an automatic conversion has emitted once its header is out: the header, then rows 0 to LINES − 1 of the
image (43_image_assembler.md R114, R119). -/
def imageRecords (s : State) : List Record :=
  .header (imageHeader s) ::
    (List.range s.lines.toNat).map fun y => .scanline ⟨BitVec.ofNat 32 y, imageRow s.src y⟩

/-- A record with its pixels left out: its kind, and what a header says or the row a scanline carries. -/
def Record.outline : Record → Record
  | .header h => .header h
  | .scanline l => .scanline { l with pixels := Vector.replicate 128 0 }

/-- Every register fits its width (10_state.md R20, R21, R29 to R33). -/
structure State.Fits (s : State) : Prop where
  len : s.len.toNat < 2 ^ s.lenBits.bits
  nstrips : s.nstrips.toNat < 2 ^ s.lenBits.stripBits
  strip : s.strip.toNat < 2 ^ s.lenBits.stripBits
  lines : s.lines.toNat < 2 ^ s.lenBits.lineBits
  cur : s.cur.toNat < 2 ^ s.lenBits.bits

/-- CHUNK holds strip `STRIP − 1` of the Source (20_memory.md R50). -/
def State.ChunkIsStrip (s : State) : Prop :=
  ∀ i : Fin 256, s.src[256 * (s.strip.toNat - 1) + i.val]? = some s.chunk[i.val]

/-- What holds besides when AUTO = 1: the datapath and OUT hold the image's pixels (42_bitplane_decoder.md R100,
43_image_assembler.md R104, R119). -/
structure State.Canonical (s : State) : Prop where
  stripClosed : s.lines.toNat = 8 * s.strip.toNat → s.lineLen = 0 ∧ s.sliceValid = false
  sliceFits : s.sliceValid = true → s.lineLen.toNat ≤ 120
  lineIsImage : ∀ j : Fin 128, j.val < s.lineLen.toNat → s.line[j.val] = imagePixel s.src j.val s.lines.toNat
  sliceIsImage : s.sliceValid = true →
    ∀ i : Fin 8, s.slice[i.val] = imagePixel s.src (s.lineLen.toNat + i.val) s.lines.toNat
  outIsImage : s.hdrSent = true → imageRecords s <:+ s.out

/-- The invariant of the states a run reaches, in every phase. Its RUN part is 10_state.md R44. -/
structure State.Inv (s : State) : Prop where
  fits : s.Fits
  curInSource : s.cur.toNat ≤ s.src.length
  lineLenRange : s.lineLen.toNat % 8 = 0 ∧ s.lineLen.toNat ≤ 128
  stripRange : s.strip.toNat ≤ s.nstrips.toNat
  linesRange : s.lines.toNat ≤ 8 * s.strip.toNat ∧ 8 * s.strip.toNat ≤ s.lines.toNat + 8
  beforeHeader : s.hdrSent = false → s.strip = 0 ∧ s.lines = 0 ∧ s.lineLen = 0
  noFault : s.phase ≠ .error → s.err = .none ∧ s.errOp = 0
  faultRecorded : s.phase = .error → s.err ≠ .none
  curIsStrips : s.phase ≠ .error → s.cur.toNat = 256 * s.strip.toNat
  chunkWhenStrip : s.phase ≠ .error → (s.chunkValid = true ↔ 1 ≤ s.strip.toNat)
  chunkIsStrip : s.chunkValid = true → 1 ≤ s.strip.toNat ∧ s.ChunkIsStrip
  sliceNeedsStrip : s.sliceValid = true → 1 ≤ s.strip.toNat
  idleClear : s.phase = .idle → s.nstrips = 0 ∧ s.hdrSent = false
  started : s.phase = .run ∨ s.phase = .done → 1 ≤ s.nstrips.toNat ∧ s.len.toNat = 256 * s.nstrips.toNat
  doneComplete : s.phase = .done → s.hdrSent = true ∧ s.strip = s.nstrips ∧ s.lines.toNat = 8 * s.nstrips.toNat ∧
    s.lineLen = 0 ∧ s.sliceValid = false
  outOutline : s.hdrSent = true → (imageRecords s).map Record.outline <:+ s.out.map Record.outline
  canonical : s.auto = true → s.Canonical

/-- The phase gate (44_control.md R126) or a precondition of the operation fails: the rows of 60_exceptions.md R138, each
written from its own rule. -/
def OutOfSequence : Instr → State → Prop
  | .start, s => s.phase ≠ .idle
  | .emitHeader, s => s.phase ≠ .run ∨ s.hdrSent = true
  | .readStrip, s => s.phase ≠ .run ∨ s.hdrSent = false ∨ s.nstrips.toNat ≤ s.strip.toNat ∨
      s.lines.toNat ≠ 8 * s.strip.toNat ∨ s.lineLen ≠ 0 ∨ s.sliceValid = true
  | .decodeSlice _ _, s => s.phase ≠ .run ∨ s.chunkValid = false ∨ s.sliceValid = true
  | .appendSlice, s => s.phase ≠ .run ∨ s.sliceValid = false ∨ 120 < s.lineLen.toNat
  | .emitScanline, s => s.phase ≠ .run ∨ s.lineLen.toNat ≠ 128 ∨ 8 * s.strip.toNat ≤ s.lines.toNat
  | .finish, s => s.phase ≠ .run ∨ s.hdrSent = false ∨ s.strip ≠ s.nstrips ∨ s.lines.toNat ≠ 8 * s.nstrips.toNat ∨
      s.lineLen ≠ 0 ∨ s.sliceValid = true

/-- The script gives the Core its turn: it is empty, or its next entry says so (log entry 3). -/
def State.CoreIsNext (s : State) : Prop := s.inputs = [] ∨ ∃ rest, s.inputs = .coreTurn :: rest

/-- The host writes the word `w` to CMD at this step (44_control.md R128). -/
def State.HostIssues (s : State) (w : OpWord) : Prop := ∃ v rest, s.inputs = .write 0x06 v :: rest ∧ v.setWidth 16 = w

/-- The operation `i` is the one issued at this step: decoded from a CMD write outside an automatic run, or the
sequencer's on the Core's turn in one (44_control.md R128, 43_image_assembler.md R118). -/
def State.Issues (s : State) (i : Instr) : Prop :=
  (¬(s.phase = .run ∧ s.auto = true) ∧ ∃ w, s.HostIssues w ∧ decode w = .ok i) ∨
    (s.phase = .run ∧ s.auto = true ∧ s.CoreIsNext ∧ i = nextOp s)

/-- How many steps an automatic run still has to take to DONE: `2 + 265 × R` after START (43_image_assembler.md R119). -/
def stepsLeft (s : State) : Nat :=
  if s.phase ≠ .run then 0
  else if s.hdrSent = false then 2 + 265 * s.nstrips.toNat
  else
    1 + 265 * (s.nstrips.toNat - s.strip.toNat) +
      (33 * (8 * s.strip.toNat - s.lines.toNat) - (2 * (s.lineLen.toNat / 8) + s.sliceValid.toNat))

/-- Operations executed one after the other, stopping at a fault or refusal (30_encoding.md R74). -/
def execAll : List Instr → State → Result
  | [], s => .next s
  | i :: is, s =>
    match exec i s with
    | .next t => execAll is t
    | .fault r => .fault r
    | .refused r => .refused r

/-- The operations the sequencer issues in `n` turns of the Core (43_image_assembler.md R118, R119). -/
def issued : Nat → State → List Instr
  | 0, _ => []
  | n + 1, s =>
    if autoRun s then
      match exec (nextOp s) s with
      | .next t => nextOp s :: issued n t
      | .fault _ => [nextOp s]
      | .refused _ => [nextOp s]
    else []

/-- CHUNK where it holds a value, a fixed value where it does not (00_scope.md R14). -/
def heldChunk (valid : Bool) (chunk : StripChunk) : StripChunk := if valid then chunk else Vector.replicate 256 0

/-- SLICE where it holds a value, a fixed value where it does not (00_scope.md R14). -/
def heldSlice (valid : Bool) (slice : Slice) : Slice := if valid then slice else Vector.replicate 8 0

/-- The entries of LINE that hold a value, a fixed value in the others (00_scope.md R14, 10_state.md R37). -/
def heldLine (lineLen : BitVec 8) (pixels : LineBuf) : LineBuf :=
  Vector.ofFn fun j : Fin 128 => if j.val < lineLen.toNat then pixels[j.val] else 0

/-- The state with a fixed value wherever the spec says that an element holds no value (00_scope.md R14): two states
with the same `visible` differ only where no value is held. -/
def State.visible (s : State) : State :=
  { s with
    chunk := heldChunk s.chunkValid s.chunk
    slice := heldSlice s.sliceValid s.slice
    line := heldLine s.lineLen s.line }

/-- A function of the next state applied to an answer. -/
def mapNext (f : State → State) : Result → Result
  | .next s => .next (f s)
  | .fault r => .fault r
  | .refused r => .refused r

/-- The host's boot order for one automatic conversion (70_reset_and_hazards.md R157, steps 3, 4, 5 and 7). -/
def bootScript (size : Word) (palette : Palette) : List Input :=
  [.write 0x00 size, .write 0x01 (palette[0].setWidth 32), .write 0x02 (palette[1].setWidth 32),
    .write 0x03 (palette[2].setWidth 32), .write 0x04 (palette[3].setWidth 32), .write 0x05 1, .write 0x06 0x1000]

/-- How many host accesses the boot order makes. -/
def bootSteps : Nat := 7

end Sys2Proof.Machine
end

