-- ==== Sys2Proof/Certificates/Slice0/Obligations.lean ====
section
/-! DEFINITION. The statements for the provers. Each says in its docstring which rule of the spec it formalises. A
result is written as an equation `exec i s = .next { s with … }`, so it says the operation's frame too: every field that
is not named keeps its value. -/

open Sys2Proof Sys2Proof.Machine

/-! ### Encoding -/

/-- 30_encoding.md R66, R67, R70: an operation is read from its own word and from no other. -/
def Obligations.DecodeReadsExactlyTheEncodedWord : Prop :=
  ∀ (w : OpWord) (i : Instr), decode w = .ok i ↔ w = encode i

/-- 30_encoding.md R71: a word is an operation exactly when its opcode is assigned and its reserved bits are zero. -/
def Obligations.LegalWordsAreThoseWithZeroReservedBits : Prop :=
  ∀ w : OpWord, (∃ i, decode w = .ok i) ↔
    (w.extractLsb' 12 4 = 0x4#4 ∧ w.getLsbD 7 = false ∧ w.extractLsb' 0 4 = 0#4) ∨
    ((w.extractLsb' 12 4).toNat ∈ [0x1, 0x2, 0x3, 0x5, 0x6, 0x7] ∧ w.extractLsb' 0 12 = 0#12)

/-- 30_encoding.md R70: exactly 134 words decode to an operation. -/
def Obligations.ExactlyOneHundredThirtyFourLegalWords : Prop :=
  (allInstrs.map encode).Nodup ∧ (allInstrs.map encode).length = 134 ∧
    ∀ w : OpWord, (∃ i, decode w = .ok i) ↔ w ∈ allInstrs.map encode

/-- 30_encoding.md R67, 95_test_vectors.md V10: words written out from the encoding tables. -/
def Obligations.SampleWordsDecode : Prop :=
  decode 0b0001000000000000#16 = .ok .start ∧ decode 0b0010000000000000#16 = .ok .emitHeader ∧
  decode 0b0011000000000000#16 = .ok .readStrip ∧ decode 0b0100111101110000#16 = .ok (.decodeSlice 15 7) ∧
  decode 0b0100001101010000#16 = .ok (.decodeSlice 3 5) ∧ decode 0b0101000000000000#16 = .ok .appendSlice ∧
  decode 0b0110000000000000#16 = .ok .emitScanline ∧ decode 0b0111000000000000#16 = .ok .finish ∧
  decode 0x0000#16 = .error .unassignedOpcode ∧ decode 0x40F0#16 = .error .reservedBits ∧
  decode 0x5010#16 = .error .reservedBits ∧ decode 0xFFFF#16 = .error .unassignedOpcode

/-! ### The bitplane decoder -/

/-- 42_bitplane_decoder.md R95: the loop of R94 is the closed form, lane by lane. -/
def Obligations.DecodeRowIsTheClosedForm : Prop :=
  ∀ (lo hi : Byte) (i : Fin 8),
    (decodeRow lo hi)[i.val].toNat = (lo.getLsbD (7 - i.val)).toNat + 2 * (hi.getLsbD (7 - i.val)).toNat

/-- 42_bitplane_decoder.md R99: the addresses DECODE_SLICE forms, with no wrap at 8 bits. -/
def Obligations.ChunkAddressesStayInTheStrip : Prop :=
  ∀ (cx : BitVec 4) (py : BitVec 3),
    (tileBase cx).toNat = 16 * cx.toNat ∧ (tileBase cx).toNat ≤ 240 ∧
    (loAddr cx py).toNat = 16 * cx.toNat + py.toNat ∧ (loAddr cx py).toNat ≤ 247 ∧
    (hiAddr cx py).toNat = 16 * cx.toNat + 8 + py.toNat ∧ (hiAddr cx py).toNat ≤ 255 ∧
    (loAddr cx py).toNat % 16 < 8 ∧ 8 ≤ (hiAddr cx py).toNat % 16

/-- 42_bitplane_decoder.md R93: DECODE_SLICE decodes a tile row into SLICE, or raises SEQUENCE_ERROR. -/
def Obligations.DecodeSliceDecodesOneTileRow : Prop :=
  ∀ (cx : BitVec 4) (py : BitVec 3) (s : State), s.phase = .run →
    (s.chunkValid = true → s.sliceValid = false →
      ∃ lo hi, s.chunk[16 * cx.toNat + py.toNat]? = some lo ∧ s.chunk[16 * cx.toNat + 8 + py.toNat]? = some hi ∧
        exec (.decodeSlice cx py) s = .next { s with slice := decodeRow lo hi, sliceValid := true }) ∧
    (s.chunkValid = false ∨ s.sliceValid = true →
      exec (.decodeSlice cx py) s = .next { s with
        phase := .error, err := .sequenceError
        errOp := 0x4000#16 ||| cx.setWidth 16 <<< 8 ||| py.setWidth 16 <<< 4 })

/-! ### The tile-strip reader -/

/-- 41_tile_strip_reader.md R88: READ_STRIP with 256 bytes left in the Source. -/
def Obligations.ReadStripFillsTheChunk : Prop :=
  ∀ s : State, s.Inv → s.phase = .run → s.hdrSent = true → s.strip.toNat < s.nstrips.toNat →
    s.lines.toNat = 8 * s.strip.toNat → s.lineLen = 0 → s.sliceValid = false →
    s.cur.toNat + 256 ≤ s.src.length →
    ∃ chunk : StripChunk, (∀ i : Fin 256, s.src[s.cur.toNat + i.val]? = some chunk[i.val]) ∧
      exec .readStrip s = .next { s with
        chunk := chunk, chunkValid := true, strip := s.strip + 1, cur := s.cur + 256 }

/-- 41_tile_strip_reader.md R89: READ_STRIP meets the end of the Source. -/
def Obligations.ReadStripTruncationConsumesTheTail : Prop :=
  ∀ s : State, s.Inv → s.phase = .run → s.hdrSent = true → s.strip.toNat < s.nstrips.toNat →
    s.lines.toNat = 8 * s.strip.toNat → s.lineLen = 0 → s.sliceValid = false →
    s.src.length < s.cur.toNat + 256 →
    exec .readStrip s = .next { s with
      chunkValid := false, cur := BitVec.ofNat 32 s.src.length
      phase := .error, err := .streamTruncation, errOp := 0x3000#16 }

/-- 41_tile_strip_reader.md R88: the four preconditions of READ_STRIP. -/
def Obligations.ReadStripRefusedOutOfSequence : Prop :=
  ∀ s : State, s.phase = .run →
    (s.hdrSent = false ∨ s.nstrips.toNat ≤ s.strip.toNat ∨ s.lines.toNat ≠ 8 * s.strip.toNat ∨ s.lineLen ≠ 0 ∨
      s.sliceValid = true) →
    exec .readStrip s = .next { s with phase := .error, err := .sequenceError, errOp := 0x3000#16 }

/-! ### The image assembler -/

/-- 43_image_assembler.md R103: APPEND_SLICE concatenates SLICE onto LINE, or raises SEQUENCE_ERROR. -/
def Obligations.AppendSliceConcatenates : Prop :=
  ∀ s : State, s.phase = .run →
    (s.sliceValid = true → s.lineLen.toNat ≤ 120 →
      ∃ pixels : LineBuf, (∀ i : Fin 8, pixels[s.lineLen.toNat + i.val]? = some s.slice[i.val]) ∧
        (∀ j : Fin 128, j.val < s.lineLen.toNat ∨ s.lineLen.toNat + 8 ≤ j.val → pixels[j.val] = s.line[j.val]) ∧
        exec .appendSlice s = .next { s with line := pixels, lineLen := s.lineLen + 8, sliceValid := false }) ∧
    (s.sliceValid = false ∨ 120 < s.lineLen.toNat →
      exec .appendSlice s = .next { s with phase := .error, err := .sequenceError, errOp := 0x5000#16 })

/-- 43_image_assembler.md R104: sixteen pairs DECODE_SLICE, APPEND_SLICE from LINE_LEN = 0 build the scanline. -/
def Obligations.SixteenPairsBuildTheScanline : Prop :=
  ∀ (s : State) (py : BitVec 3), s.phase = .run → s.chunkValid = true → s.sliceValid = false → s.lineLen = 0 →
    ∃ pixels : LineBuf,
      execAll ((List.range 16).flatMap fun cx => [.decodeSlice (BitVec.ofNat 4 cx) py, .appendSlice]) s =
          .next { s with
            line := pixels, lineLen := 128, sliceValid := false
            slice := decodeRow (chunkByte s (loAddr 15 py)) (chunkByte s (hiAddr 15 py)) } ∧
      ∀ (cx : Fin 16) (i : Fin 8),
        pixels[8 * cx.val + i.val]? =
          some (decodeRow (chunkByte s (loAddr (BitVec.ofNat 4 cx.val) py))
            (chunkByte s (hiAddr (BitVec.ofNat 4 cx.val) py)))[i.val]

/-- 43_image_assembler.md R109: EMIT_SCANLINE hands the completed scanline to the Sink, or raises SEQUENCE_ERROR. -/
def Obligations.EmitScanlineEmitsTheLine : Prop :=
  ∀ s : State, s.Fits → s.phase = .run →
    (s.lineLen.toNat = 128 → s.lines.toNat < 8 * s.strip.toNat →
      exec .emitScanline s = .next { s with
        out := s.out ++ [.scanline ⟨s.lines, s.line⟩], lines := s.lines + 1, lineLen := 0 }) ∧
    (s.lineLen.toNat ≠ 128 ∨ 8 * s.strip.toNat ≤ s.lines.toNat →
      exec .emitScanline s = .next { s with phase := .error, err := .sequenceError, errOp := 0x6000#16 })

/-- 43_image_assembler.md R111: EMIT_HEADER supplies the metadata once, or raises SEQUENCE_ERROR. -/
def Obligations.EmitHeaderSuppliesTheMetadata : Prop :=
  ∀ s : State, s.Fits → s.phase = .run →
    (s.hdrSent = false →
      exec .emitHeader s = .next { s with
        out := s.out ++ [.header ⟨128, BitVec.ofNat 32 (8 * s.nstrips.toNat), 2, s.pal⟩], hdrSent := true }) ∧
    (s.hdrSent = true →
      exec .emitHeader s = .next { s with phase := .error, err := .sequenceError, errOp := 0x2000#16 })

/-! ### The control operations and the phase gate -/

/-- 44_control.md R121: START in IDLE begins a conversion of `LEN div 256` strips or raises INVALID_INPUT_SIZE; in RUN
and DONE it raises SEQUENCE_ERROR; in ERROR it has no effect (60_exceptions.md R145). -/
def Obligations.StartChecksTheLengthAndBegins : Prop :=
  ∀ s : State, s.Fits →
    (s.phase = .idle → s.len.toNat ≠ 0 → s.len.toNat % 256 = 0 →
      exec .start s = .next { s with
        nstrips := BitVec.ofNat 32 (s.len.toNat / 256), strip := 0, lines := 0, lineLen := 0, hdrSent := false
        chunkValid := false, sliceValid := false, phase := .run }) ∧
    (s.phase = .idle → s.len.toNat = 0 ∨ s.len.toNat % 256 ≠ 0 →
      exec .start s = .next { s with phase := .error, err := .invalidInputSize, errOp := 0x1000#16 }) ∧
    (s.phase = .run ∨ s.phase = .done →
      exec .start s = .next { s with phase := .error, err := .sequenceError, errOp := 0x1000#16 }) ∧
    (s.phase = .error → exec .start s = .next s)

/-- 44_control.md R124: FINISH ends a conversion that has emitted every scanline, or raises SEQUENCE_ERROR. -/
def Obligations.FinishEndsACompleteConversion : Prop :=
  ∀ s : State, s.phase = .run →
    (s.hdrSent = true → s.strip = s.nstrips → s.lines.toNat = 8 * s.nstrips.toNat → s.lineLen = 0 →
      s.sliceValid = false → exec .finish s = .next { s with phase := .done }) ∧
    (s.hdrSent = false ∨ s.strip ≠ s.nstrips ∨ s.lines.toNat ≠ 8 * s.nstrips.toNat ∨ s.lineLen ≠ 0 ∨
      s.sliceValid = true →
      exec .finish s = .next { s with phase := .error, err := .sequenceError, errOp := 0x7000#16 })

/-- 44_control.md R126: the phase gate every operation passes, an illegal word among them (outside an automatic run,
where R128 stops a CMD write before the gate). -/
def Obligations.PhaseGateAdmitsByPhase : Prop :=
  (∀ (i : Instr) (s : State), s.phase = .error → exec i s = .next s) ∧
  (∀ s : State, s.phase = .run ∨ s.phase = .done →
    exec .start s = .next { s with phase := .error, err := .sequenceError, errOp := 0x1000#16 }) ∧
  (∀ (i : Instr) (s : State), i ≠ .start → s.phase = .idle ∨ s.phase = .done →
    exec i s = .next { s with phase := .error, err := .sequenceError, errOp := encode i }) ∧
  (∀ (w : OpWord) (e : DecodeError) (s : State), decode w = .error e → s.phase = .error → cmdWrite w s = .next s) ∧
  (∀ (w : OpWord) (e : DecodeError) (s : State), decode w = .error e → s.phase ≠ .error →
    ¬(s.phase = .run ∧ s.auto = true) →
    cmdWrite w s = .next { s with phase := .error, err := .illegalOperation, errOp := w })

/-! ### One step -/

/-- 44_control.md R128: a host write to CMD. Outside an automatic run a step is `exec` of the decoded operation at the
state with the write taken off the script; in an automatic run it is SEQUENCE_ERROR whatever the word. -/
def Obligations.CmdWriteRunsTheDecodedOperation : Prop :=
  ∀ (s : State) (v : Word) (rest : List Input), s.inputs = .write 0x06 v :: rest →
    (s.phase = .run → s.auto = true →
      step s = .next { s with inputs := rest, phase := .error, err := .sequenceError, errOp := v.setWidth 16 }) ∧
    (¬(s.phase = .run ∧ s.auto = true) → ∀ i, decode (v.setWidth 16) = .ok i →
      step s = exec i { s with inputs := rest }) ∧
    (¬(s.phase = .run ∧ s.auto = true) → s.phase ≠ .error → ∀ e, decode (v.setWidth 16) = .error e →
      step s = .next { s with inputs := rest, phase := .error, err := .illegalOperation, errOp := v.setWidth 16 }) ∧
    (s.phase = .error → step s = .next { s with inputs := rest })

/-- 43_image_assembler.md R118: the Core's turn runs NextOp in an automatic run, whether the script says so or is
empty, and changes nothing elsewhere (the waiting step is the model's, log entry 5). -/
def Obligations.CoreTurnRunsNextOp : Prop :=
  (∀ s : State, s.inputs = [] → s.phase = .run → s.auto = true → step s = exec (nextOp s) s) ∧
  (∀ (s : State) (rest : List Input), s.inputs = .coreTurn :: rest → s.phase = .run → s.auto = true →
    step s = exec (nextOp s) { s with inputs := rest }) ∧
  (∀ s : State, s.inputs = [] → ¬(s.phase = .run ∧ s.auto = true) → step s = .next s) ∧
  (∀ (s : State) (rest : List Input), s.inputs = .coreTurn :: rest → ¬(s.phase = .run ∧ s.auto = true) →
    step s = .next { s with inputs := rest })

/-- 43_image_assembler.md R118: what NextOp returns. -/
def Obligations.NextOpFollowsTheCounters : Prop :=
  ∀ s : State,
    (s.hdrSent = false → nextOp s = .emitHeader) ∧
    (s.hdrSent = true → s.lineLen = 128 → nextOp s = .emitScanline) ∧
    (s.hdrSent = true → s.lineLen ≠ 128 → s.sliceValid = true → nextOp s = .appendSlice) ∧
    (s.hdrSent = true → s.sliceValid = false → s.lineLen = 0 → s.lines.toNat = 8 * s.strip.toNat →
      s.strip.toNat < s.nstrips.toNat → nextOp s = .readStrip) ∧
    (s.hdrSent = true → s.sliceValid = false → s.lineLen = 0 → s.lines.toNat = 8 * s.strip.toNat →
      s.nstrips.toNat ≤ s.strip.toNat → nextOp s = .finish) ∧
    (s.hdrSent = true → s.lineLen ≠ 128 → s.sliceValid = false → (s.lineLen ≠ 0 ∨ s.lines.toNat ≠ 8 * s.strip.toNat) →
      nextOp s = .decodeSlice (BitVec.ofNat 4 (s.lineLen.toNat / 8)) (BitVec.ofNat 3 (s.lines.toNat % 8)))

/-! ### Host register accesses and reset -/

/-- 44_control.md R127, the rows LEN, PAL0 to PAL3 and CTRL in IDLE (and 10_state.md R21 to R23: what a write keeps). -/
def Obligations.ConfigurationWritesInIdle : Prop :=
  ∀ (s : State) (off : Nat) (v : Word) (rest : List Input), s.inputs = .write off v :: rest → s.phase = .idle →
    (off = 0x00 → step s = .next { s with inputs := rest, len := BitVec.ofNat 32 (v.toNat % 2 ^ s.lenBits.bits) }) ∧
    (∀ k : Fin 4, off = 0x01 + k.val →
      step s = .next { s with inputs := rest, pal := s.pal.set k.val (BitVec.ofNat 24 (v.toNat % 2 ^ 24)) k.isLt }) ∧
    (off = 0x05 → step s = .next { s with inputs := rest, auto := v.getLsbD 0 })

/-- 44_control.md R129: LEN, PALk and CTRL written in RUN or DONE. -/
def Obligations.ConfigurationWriteWhileBusyFaults : Prop :=
  ∀ (s : State) (off : Nat) (v : Word) (rest : List Input), s.inputs = .write off v :: rest → off ≤ 0x05 →
    s.phase = .run ∨ s.phase = .done →
    step s = .next { s with
      inputs := rest, phase := .error, err := .configWriteWhileBusy, errOp := BitVec.ofNat 16 off }

/-- 44_control.md R127: the writes that have no effect: any write in ERROR, and a write to a read-only or unassigned
offset in any phase. -/
def Obligations.IgnoredWritesHaveNoEffect : Prop :=
  ∀ (s : State) (off : Nat) (v : Word) (rest : List Input), s.inputs = .write off v :: rest →
    s.phase = .error ∨ 0x07 ≤ off → step s = .next { s with inputs := rest }

/-- 10_state.md R20: what the host reads at each offset, with no effect on the block (20_memory.md R55). That the
values returned are kept in `replies` is the model's (log entry 4). -/
def Obligations.HostReadsReturnTheRegisters : Prop :=
  ∀ (s : State) (off : Nat) (rest : List Input), s.inputs = .read off :: rest →
    step s = .next { s with inputs := rest, replies := s.replies ++ [memRead s off] } ∧
    (off = 0x00 → memRead s off = s.len) ∧
    (∀ k : Fin 4, off = 0x01 + k.val → (memRead s off).toNat = s.pal[k.val].toNat) ∧
    (off = 0x05 → (memRead s off).toNat = s.auto.toNat) ∧
    (off = 0x06 → memRead s off = 0) ∧
    (off = 0x07 → memRead s off = statusWord s) ∧
    (off = 0x08 → (memRead s off).toNat = s.errOp.toNat) ∧
    (off = 0x09 → memRead s off = s.nstrips) ∧
    (off = 0x0A → memRead s off = s.strip) ∧
    (off = 0x0B → memRead s off = s.lines) ∧
    (off = 0x0C → (memRead s off).toNat = s.lineLen.toNat) ∧
    (off = 0x0D → memRead s off = s.cur) ∧
    (0x0E ≤ off → memRead s off = 0)

/-- 10_state.md R25 and R27: the fields of STATUS. -/
def Obligations.StatusWordShowsTheFlags : Prop :=
  ∀ s : State,
    (statusWord s).extractLsb' 0 2 = (match s.phase with | .idle => 0 | .run => 1 | .done => 2 | .error => 3) ∧
    (statusWord s).getLsbD 2 = s.hdrSent ∧ (statusWord s).getLsbD 3 = s.chunkValid ∧
    (statusWord s).getLsbD 4 = s.sliceValid ∧ (statusWord s).extractLsb' 5 3 = 0 ∧
    (statusWord s).extractLsb' 8 4 = (match s.err with
      | .none => 0 | .invalidInputSize => 1 | .streamTruncation => 2 | .illegalOperation => 3 | .sequenceError => 4
      | .configWriteWhileBusy => 5) ∧
    (statusWord s).extractLsb' 12 20 = 0

/-- 10_state.md R45, 70_reset_and_hazards.md R154: the values reset leaves, taken in any phase, OUT kept. The new Source
is R155's. That LEN_BITS, the rest of the script and the replies stay is the model's (log entry 12). -/
def Obligations.ResetEventSetsTheResetValues : Prop :=
  ∀ (s : State) (src : List Byte) (rest : List Input), s.inputs = .reset src :: rest →
    ∃ t, step s = .next t ∧ t.len = 0 ∧
      t.pal.toList = [0x000000#24, 0x555555#24, 0xAAAAAA#24, 0xFFFFFF#24] ∧ t.auto = true ∧ t.phase = .idle ∧
      t.hdrSent = false ∧ t.chunkValid = false ∧ t.sliceValid = false ∧ t.err = .none ∧ t.errOp = 0 ∧ t.nstrips = 0 ∧
      t.strip = 0 ∧ t.lines = 0 ∧ t.lineLen = 0 ∧ t.cur = 0 ∧ t.src = src ∧ t.out = s.out ∧ t.lenBits = s.lenBits ∧
      t.inputs = rest ∧ t.replies = s.replies

/-! ### Rules of the whole machine -/

/-- The invariant holds right after reset, for every LEN_BITS, Source and script (10_state.md R45). -/
def Obligations.InvariantHoldsAtLaunch : Prop :=
  ∀ (p : LenBits) (src : List Byte) (inputs : List Input), (State.launch p src inputs).Inv

/-- Every step keeps the invariant, whatever the host does: 10_state.md R44, 20_memory.md R50, R59 and what they rest
on. -/
def Obligations.EveryStepKeepsTheInvariant : Prop :=
  ∀ s s' : State, s.Inv → step s = .next s' → s'.Inv

/-- 10_state.md R44, clause by clause, of every state a run reaches: from any launch, under any script of host accesses,
Core turns and resets. -/
def Obligations.RunStatesMeetTheCounterBounds : Prop :=
  ∀ (p : LenBits) (src : List Byte) (script : List Input) (n : Nat) (s : State),
    Sys2Proof.core.run n (State.launch p src script) = .next s → s.phase = .run →
    s.strip.toNat ≤ s.nstrips.toNat ∧ 1 ≤ s.nstrips.toNat ∧ s.cur.toNat = 256 * s.strip.toNat ∧
    (s.chunkValid = true ↔ 1 ≤ s.strip.toNat) ∧
    (1 ≤ s.strip.toNat → 8 * (s.strip.toNat - 1) ≤ s.lines.toNat ∧ s.lines.toNat ≤ 8 * s.strip.toNat) ∧
    (s.strip.toNat = 0 → s.lines.toNat = 0) ∧
    s.lineLen.toNat % 8 = 0 ∧ s.lineLen.toNat ≤ 128 ∧
    (s.hdrSent = false → s.strip.toNat = 0 ∧ s.lines.toNat = 0 ∧ s.lineLen.toNat = 0)

/-- No step from a state of the invariant stops the machine. -/
def Obligations.InvariantStatesNeverStop : Prop :=
  ∀ s : State, s.Inv → ∃ s', step s = .next s'

/-- 10_state.md R26: the transitions of PHASE, and no other. -/
def Obligations.PhaseMovesOnlyAsStated : Prop :=
  ∀ s s' : State, step s = .next s' → s'.phase ≠ s.phase →
    (s'.phase = .idle ∧ ∃ src rest, s.inputs = .reset src :: rest) ∨
    (s.phase = .idle ∧ s'.phase = .run ∧ ∃ v rest, s.inputs = .write 0x06 v :: rest ∧ v.setWidth 16 = 0x1000#16) ∨
    (s.phase = .run ∧ s'.phase = .done ∧ exec .finish { s with inputs := s.inputs.tail } = .next s') ∨
    (s.phase ≠ .error ∧ s'.phase = .error ∧ s'.err ≠ .none)

/-- 60_exceptions.md R143 and R144: a step that enters ERROR writes PHASE, ERR and ERR_OP, and besides them at most
CUR and CHUNK_VALID when the fault is STREAM_TRUNCATION. -/
def Obligations.FaultsArePrecise : Prop :=
  ∀ s s' : State, step s = .next s' → s.phase ≠ .error → s'.phase = .error →
    s' = { s with inputs := s.inputs.tail, phase := .error, err := s'.err, errOp := s'.errOp } ∨
    (s'.err = .streamTruncation ∧
      s' = { s with
        inputs := s.inputs.tail, phase := .error, err := s'.err, errOp := s'.errOp, chunkValid := false
        cur := s'.cur })

/-- 60_exceptions.md R136 to R138, 10_state.md R28: the faults the block raises, their conditions, and what ERR_OP
records. An operation's fault records the word of the very operation issued at this step: the one decoded from the CMD
write, or the sequencer's on the Core's turn; SEQUENCE_ERROR only where its gate or a precondition of it fails. The
script is the model's own field (log entry 3). -/
def Obligations.FaultsFollowTheTable : Prop :=
  ∀ s s' : State, step s = .next s' → s.phase ≠ .error → s'.phase = .error →
    (s'.err = .invalidInputSize ∧ s'.errOp = 0x1000#16 ∧ s.Issues .start ∧ s.phase = .idle ∧
      (s.len.toNat = 0 ∨ s.len.toNat % 256 ≠ 0)) ∨
    (s'.err = .streamTruncation ∧ s'.errOp = 0x3000#16 ∧ s.Issues .readStrip ∧ ¬OutOfSequence .readStrip s ∧
      s.src.length < s.cur.toNat + 256 ∧ s'.chunkValid = false ∧ s'.cur.toNat = s.src.length) ∨
    (s'.err = .illegalOperation ∧ ¬(s.phase = .run ∧ s.auto = true) ∧ s.HostIssues s'.errOp ∧
      ∃ e, decode s'.errOp = .error e) ∨
    (s'.err = .sequenceError ∧
      ((∃ i, s.Issues i ∧ OutOfSequence i s ∧ s'.errOp = encode i) ∨
        (s.phase = .run ∧ s.auto = true ∧ s.HostIssues s'.errOp))) ∨
    (s'.err = .configWriteWhileBusy ∧ (s.phase = .run ∨ s.phase = .done) ∧
      ∃ off v rest, s.inputs = .write off v :: rest ∧ off ≤ 0x05 ∧ s'.errOp = BitVec.ofNat 16 off)

/-- 60_exceptions.md R146: in ERROR no step but reset changes anything of the block, so the first fault is kept. -/
def Obligations.ErrorIsStickyUntilReset : Prop :=
  ∀ s s' : State, s.phase = .error → step s = .next s' →
    (∀ src rest, s.inputs ≠ .reset src :: rest) →
    s' = { s with inputs := s.inputs.tail, replies := s'.replies }

/-- 60_exceptions.md R145: of several checks that apply to one CMD write, the first in the order takes effect. -/
def Obligations.FirstFailingCheckWins : Prop :=
  ∀ (s : State) (w : OpWord),
    (s.phase = .error → cmdWrite w s = .next s) ∧
    (s.phase = .run → s.auto = true → cmdWrite w s = .next (raiseFault .sequenceError w s)) ∧
    (s.phase = .idle ∨ s.phase = .done ∨ (s.phase = .run ∧ s.auto = false) → (∀ i, decode w ≠ .ok i) →
      cmdWrite w s = .next (raiseFault .illegalOperation w s)) ∧
    (s.phase = .done → (∃ i, decode w = .ok i) → cmdWrite w s = .next (raiseFault .sequenceError w s)) ∧
    (s.phase = .idle → (∃ i, decode w = .ok i) → w ≠ 0x1000#16 →
      cmdWrite w s = .next (raiseFault .sequenceError w s)) ∧
    (s.phase = .run → s.auto = false → cmdWrite 0x1000#16 s = .next (raiseFault .sequenceError 0x1000#16 s)) ∧
    (s.phase = .run → s.auto = false → s.nstrips.toNat ≤ s.strip.toNat → s.src.length ≤ s.cur.toNat →
      cmdWrite 0x3000#16 s = .next (raiseFault .sequenceError 0x3000#16 s))

/-- 70_reset_and_hazards.md R160: LEN, the palette and CTRL are frozen from START to the next reset. -/
def Obligations.ConfigurationIsFrozenOutsideIdle : Prop :=
  ∀ s s' : State, step s = .next s' → s.phase ≠ .idle → (∀ src rest, s.inputs ≠ .reset src :: rest) →
    s'.len = s.len ∧ s'.pal = s.pal ∧ s'.auto = s.auto

/-- 20_memory.md R64 and 41_tile_strip_reader.md R85: no step but reset changes the Source or moves CUR back, and none
moves it by more than 256 bytes. -/
def Obligations.CursorNeverMovesBack : Prop :=
  ∀ s s' : State, s.Inv → step s = .next s' → (∀ src rest, s.inputs ≠ .reset src :: rest) →
    s'.src = s.src ∧ s.cur.toNat ≤ s'.cur.toNat ∧ s'.cur.toNat ≤ s.cur.toNat + 256

/-- 43_image_assembler.md R106 and 10_state.md R42: OUT grows by at most one record a step and never loses one, reset
included. -/
def Obligations.OutputOnlyGrows : Prop :=
  ∀ s s' : State, step s = .next s' → s'.out = s.out ∨ ∃ r, s'.out = s.out ++ [r]

/-- 10_state.md R42: no rule reads OUT, so what it held before never changes what a step does. -/
def Obligations.OutputIsNeverRead : Prop :=
  ∀ (s : State) (before : List Record),
    step { s with out := before ++ s.out } = mapNext (fun t => { t with out := before ++ t.out }) (step s)

/-- 00_scope.md R14: a step never reads a value that CHUNK, SLICE or LINE does not hold: states that differ only there
step alike. -/
def Obligations.AbsentValuesAreNeverRead : Prop :=
  ∀ s t : State, s.visible = t.visible → mapNext State.visible (step s) = mapNext State.visible (step t)

/-- 44_control.md R125, 43_image_assembler.md R114: in DONE the conversion is complete: OUT ends with its header and
`8 × R` scanlines with rows in order. -/
def Obligations.DoneMeansACompleteImage : Prop :=
  ∀ s s' : State, s.Inv → step s = .next s' → s'.phase = .done →
    s'.err = .none ∧ s'.cur = s'.len ∧ s'.len.toNat = 256 * s'.nstrips.toNat ∧
    ∃ (before : List Record) (rows : List LineBuf), rows.length = 8 * s'.nstrips.toNat ∧
      s'.out = before ++ .header ⟨128, BitVec.ofNat 32 (8 * s'.nstrips.toNat), 2, s'.pal⟩ ::
        rows.zipIdx.map fun (pixels, y) => .scanline ⟨BitVec.ofNat 32 y, pixels⟩

/-! ### The automatic run -/

/-- 43_image_assembler.md R119: in an automatic run from a legal start, with the Source long enough, every operation
the sequencer issues succeeds and the run comes one step nearer to DONE. -/
def Obligations.SequencerStepsTowardDone : Prop :=
  ∀ s : State, s.Inv → s.phase = .run → s.auto = true → s.len.toNat ≤ s.src.length →
    ∃ t, exec (nextOp s) s = .next t ∧ (t.phase = .run ∨ t.phase = .done ∧ nextOp s = .finish) ∧
      stepsLeft t + 1 = stepsLeft s

/-- 60_exceptions.md R137, R138: under AUTO = 1 the sequencer never raises SEQUENCE_ERROR or ILLEGAL_OPERATION, however
long the Source is, on either form of the Core's turn (a script that says so, or an empty one, log entry 3). -/
def Obligations.SequencerNeverOutOfSequence : Prop :=
  ∀ s s' : State, s.Inv → s.phase = .run → s.auto = true → s.CoreIsNext → step s = .next s' →
    s'.err ≠ .sequenceError ∧ s'.err ≠ .illegalOperation

/-- 43_image_assembler.md R117 and R119: after START the sequencer issues the canonical schedule, in `2 + 265 × R`
turns. -/
def Obligations.SequencerIssuesTheCanonicalSchedule : Prop :=
  ∀ s t : State, s.Inv → s.phase = .idle → s.auto = true → s.len.toNat ≤ s.src.length → exec .start s = .next t →
    t.phase = .run →
    Instr.start :: issued (2 + 265 * (s.len.toNat / 256)) t = canonicalSchedule (s.len.toNat / 256)

/-- 42_bitplane_decoder.md R100, 43_image_assembler.md R114 and R119, 70_reset_and_hazards.md R157: the boot order and
then `2 + 265 × R` steps convert the whole image, for every LEN_BITS, palette and Source of at least LEN bytes. That OUT
holds no earlier record is the launch's choice (log entry 18), as the script is (log entry 3). -/
def Obligations.AutomaticConversionEmitsTheWholeImage : Prop :=
  ∀ (p : LenBits) (src : List Byte) (palette : Palette) (r : Nat), 1 ≤ r → 256 * r < 2 ^ p.bits →
    256 * r ≤ src.length →
    ∃ t, Sys2Proof.core.run (bootSteps + (2 + 265 * r))
        (State.launch p src (bootScript (BitVec.ofNat 32 (256 * r)) palette)) = .next t ∧
      t.phase = .done ∧ t.err = .none ∧ t.nstrips.toNat = r ∧ t.cur.toNat = 256 * r ∧
      t.out = .header ⟨128, BitVec.ofNat 32 (8 * r), 2, palette⟩ ::
        (List.range (8 * r)).map fun y => .scanline ⟨BitVec.ofNat 32 y, Vector.ofFn fun x : Fin 128 =>
          imagePixel src x.val y⟩

/-- 41_tile_strip_reader.md R89, R92: with a Source shorter than LEN the run ends in STREAM_TRUNCATION, after the
header and the scanlines of every whole strip. That OUT holds no earlier record is the launch's choice (log entry 18), as
the script is (log entry 3). -/
def Obligations.ShortSourceEndsInTruncation : Prop :=
  ∀ (p : LenBits) (src : List Byte) (palette : Palette) (r : Nat), 1 ≤ r → 256 * r < 2 ^ p.bits →
    src.length < 256 * r →
    ∃ t, Sys2Proof.core.run (bootSteps + (2 + 265 * (src.length / 256)))
        (State.launch p src (bootScript (BitVec.ofNat 32 (256 * r)) palette)) = .next t ∧
      t.phase = .error ∧ t.err = .streamTruncation ∧ t.errOp = 0x3000#16 ∧ t.cur.toNat = src.length ∧
      t.strip.toNat = src.length / 256 ∧ t.chunkValid = false ∧
      t.out = .header ⟨128, BitVec.ofNat 32 (8 * r), 2, palette⟩ ::
        (List.range (8 * (src.length / 256))).map fun y => .scanline ⟨BitVec.ofNat 32 y, Vector.ofFn fun x : Fin 128 =>
          imagePixel src x.val y⟩
end

