-- ==== Sys2Proof/Laws/State.lean ====
section
/-! SUPPORT. One lemma per field for each named update of the state, so that no proof unfolds one. -/

namespace Sys2Proof.Machine

/-! ### Fault entry (60_exceptions.md R143) -/

@[simp] theorem raiseFault_lenBits (c : ErrCode) (w : OpWord) (s : State) : (raiseFault c w s).lenBits = s.lenBits := rfl
@[simp] theorem raiseFault_len (c : ErrCode) (w : OpWord) (s : State) : (raiseFault c w s).len = s.len := rfl
@[simp] theorem raiseFault_pal (c : ErrCode) (w : OpWord) (s : State) : (raiseFault c w s).pal = s.pal := rfl
@[simp] theorem raiseFault_auto (c : ErrCode) (w : OpWord) (s : State) : (raiseFault c w s).auto = s.auto := rfl
@[simp] theorem raiseFault_phase (c : ErrCode) (w : OpWord) (s : State) : (raiseFault c w s).phase = .error := rfl
@[simp] theorem raiseFault_err (c : ErrCode) (w : OpWord) (s : State) : (raiseFault c w s).err = c := rfl
@[simp] theorem raiseFault_errOp (c : ErrCode) (w : OpWord) (s : State) : (raiseFault c w s).errOp = w := rfl
@[simp] theorem raiseFault_nstrips (c : ErrCode) (w : OpWord) (s : State) : (raiseFault c w s).nstrips = s.nstrips := rfl
@[simp] theorem raiseFault_strip (c : ErrCode) (w : OpWord) (s : State) : (raiseFault c w s).strip = s.strip := rfl
@[simp] theorem raiseFault_lines (c : ErrCode) (w : OpWord) (s : State) : (raiseFault c w s).lines = s.lines := rfl
@[simp] theorem raiseFault_lineLen (c : ErrCode) (w : OpWord) (s : State) : (raiseFault c w s).lineLen = s.lineLen := rfl
@[simp] theorem raiseFault_cur (c : ErrCode) (w : OpWord) (s : State) : (raiseFault c w s).cur = s.cur := rfl
@[simp] theorem raiseFault_hdrSent (c : ErrCode) (w : OpWord) (s : State) : (raiseFault c w s).hdrSent = s.hdrSent := rfl
@[simp] theorem raiseFault_chunk (c : ErrCode) (w : OpWord) (s : State) : (raiseFault c w s).chunk = s.chunk := rfl
@[simp] theorem raiseFault_chunkValid (c : ErrCode) (w : OpWord) (s : State) : (raiseFault c w s).chunkValid = s.chunkValid := rfl
@[simp] theorem raiseFault_slice (c : ErrCode) (w : OpWord) (s : State) : (raiseFault c w s).slice = s.slice := rfl
@[simp] theorem raiseFault_sliceValid (c : ErrCode) (w : OpWord) (s : State) : (raiseFault c w s).sliceValid = s.sliceValid := rfl
@[simp] theorem raiseFault_line (c : ErrCode) (w : OpWord) (s : State) : (raiseFault c w s).line = s.line := rfl
@[simp] theorem raiseFault_src (c : ErrCode) (w : OpWord) (s : State) : (raiseFault c w s).src = s.src := rfl
@[simp] theorem raiseFault_out (c : ErrCode) (w : OpWord) (s : State) : (raiseFault c w s).out = s.out := rfl
@[simp] theorem raiseFault_inputs (c : ErrCode) (w : OpWord) (s : State) : (raiseFault c w s).inputs = s.inputs := rfl
@[simp] theorem raiseFault_replies (c : ErrCode) (w : OpWord) (s : State) : (raiseFault c w s).replies = s.replies := rfl

/-! ### Emit (43_image_assembler.md R106) -/

@[simp] theorem emit_lenBits (r : Record) (s : State) : (emit r s).lenBits = s.lenBits := rfl
@[simp] theorem emit_len (r : Record) (s : State) : (emit r s).len = s.len := rfl
@[simp] theorem emit_pal (r : Record) (s : State) : (emit r s).pal = s.pal := rfl
@[simp] theorem emit_auto (r : Record) (s : State) : (emit r s).auto = s.auto := rfl
@[simp] theorem emit_phase (r : Record) (s : State) : (emit r s).phase = s.phase := rfl
@[simp] theorem emit_err (r : Record) (s : State) : (emit r s).err = s.err := rfl
@[simp] theorem emit_errOp (r : Record) (s : State) : (emit r s).errOp = s.errOp := rfl
@[simp] theorem emit_nstrips (r : Record) (s : State) : (emit r s).nstrips = s.nstrips := rfl
@[simp] theorem emit_strip (r : Record) (s : State) : (emit r s).strip = s.strip := rfl
@[simp] theorem emit_lines (r : Record) (s : State) : (emit r s).lines = s.lines := rfl
@[simp] theorem emit_lineLen (r : Record) (s : State) : (emit r s).lineLen = s.lineLen := rfl
@[simp] theorem emit_cur (r : Record) (s : State) : (emit r s).cur = s.cur := rfl
@[simp] theorem emit_hdrSent (r : Record) (s : State) : (emit r s).hdrSent = s.hdrSent := rfl
@[simp] theorem emit_chunk (r : Record) (s : State) : (emit r s).chunk = s.chunk := rfl
@[simp] theorem emit_chunkValid (r : Record) (s : State) : (emit r s).chunkValid = s.chunkValid := rfl
@[simp] theorem emit_slice (r : Record) (s : State) : (emit r s).slice = s.slice := rfl
@[simp] theorem emit_sliceValid (r : Record) (s : State) : (emit r s).sliceValid = s.sliceValid := rfl
@[simp] theorem emit_line (r : Record) (s : State) : (emit r s).line = s.line := rfl
@[simp] theorem emit_src (r : Record) (s : State) : (emit r s).src = s.src := rfl
@[simp] theorem emit_out (r : Record) (s : State) : (emit r s).out = s.out ++ [r] := rfl
@[simp] theorem emit_inputs (r : Record) (s : State) : (emit r s).inputs = s.inputs := rfl
@[simp] theorem emit_replies (r : Record) (s : State) : (emit r s).replies = s.replies := rfl

/-! ### START's writes (44_control.md R121) -/

@[simp] theorem beginConversion_lenBits (s : State) : (beginConversion s).lenBits = s.lenBits := rfl
@[simp] theorem beginConversion_len (s : State) : (beginConversion s).len = s.len := rfl
@[simp] theorem beginConversion_pal (s : State) : (beginConversion s).pal = s.pal := rfl
@[simp] theorem beginConversion_auto (s : State) : (beginConversion s).auto = s.auto := rfl
@[simp] theorem beginConversion_phase (s : State) : (beginConversion s).phase = .run := rfl
@[simp] theorem beginConversion_err (s : State) : (beginConversion s).err = s.err := rfl
@[simp] theorem beginConversion_errOp (s : State) : (beginConversion s).errOp = s.errOp := rfl
@[simp] theorem beginConversion_nstrips (s : State) : (beginConversion s).nstrips = truncTo s.lenBits.stripBits (BitVec.ofNat 32 (s.len.toNat / 256)) := rfl
@[simp] theorem beginConversion_strip (s : State) : (beginConversion s).strip = 0 := rfl
@[simp] theorem beginConversion_lines (s : State) : (beginConversion s).lines = 0 := rfl
@[simp] theorem beginConversion_lineLen (s : State) : (beginConversion s).lineLen = 0 := rfl
@[simp] theorem beginConversion_cur (s : State) : (beginConversion s).cur = s.cur := rfl
@[simp] theorem beginConversion_hdrSent (s : State) : (beginConversion s).hdrSent = false := rfl
@[simp] theorem beginConversion_chunk (s : State) : (beginConversion s).chunk = s.chunk := rfl
@[simp] theorem beginConversion_chunkValid (s : State) : (beginConversion s).chunkValid = false := rfl
@[simp] theorem beginConversion_slice (s : State) : (beginConversion s).slice = s.slice := rfl
@[simp] theorem beginConversion_sliceValid (s : State) : (beginConversion s).sliceValid = false := rfl
@[simp] theorem beginConversion_line (s : State) : (beginConversion s).line = s.line := rfl
@[simp] theorem beginConversion_src (s : State) : (beginConversion s).src = s.src := rfl
@[simp] theorem beginConversion_out (s : State) : (beginConversion s).out = s.out := rfl
@[simp] theorem beginConversion_inputs (s : State) : (beginConversion s).inputs = s.inputs := rfl
@[simp] theorem beginConversion_replies (s : State) : (beginConversion s).replies = s.replies := rfl

/-! ### The launch state (10_state.md R45) -/

@[simp] theorem launch_lenBits (p : LenBits) (src : List Byte) (inputs : List Input) : (State.launch p src inputs).lenBits = p := rfl
@[simp] theorem launch_len (p : LenBits) (src : List Byte) (inputs : List Input) : (State.launch p src inputs).len = 0 := rfl
@[simp] theorem launch_pal (p : LenBits) (src : List Byte) (inputs : List Input) : (State.launch p src inputs).pal = Config.grayRamp := rfl
@[simp] theorem launch_auto (p : LenBits) (src : List Byte) (inputs : List Input) : (State.launch p src inputs).auto = true := rfl
@[simp] theorem launch_phase (p : LenBits) (src : List Byte) (inputs : List Input) : (State.launch p src inputs).phase = .idle := rfl
@[simp] theorem launch_err (p : LenBits) (src : List Byte) (inputs : List Input) : (State.launch p src inputs).err = .none := rfl
@[simp] theorem launch_errOp (p : LenBits) (src : List Byte) (inputs : List Input) : (State.launch p src inputs).errOp = 0 := rfl
@[simp] theorem launch_nstrips (p : LenBits) (src : List Byte) (inputs : List Input) : (State.launch p src inputs).nstrips = 0 := rfl
@[simp] theorem launch_strip (p : LenBits) (src : List Byte) (inputs : List Input) : (State.launch p src inputs).strip = 0 := rfl
@[simp] theorem launch_lines (p : LenBits) (src : List Byte) (inputs : List Input) : (State.launch p src inputs).lines = 0 := rfl
@[simp] theorem launch_lineLen (p : LenBits) (src : List Byte) (inputs : List Input) : (State.launch p src inputs).lineLen = 0 := rfl
@[simp] theorem launch_cur (p : LenBits) (src : List Byte) (inputs : List Input) : (State.launch p src inputs).cur = 0 := rfl
@[simp] theorem launch_hdrSent (p : LenBits) (src : List Byte) (inputs : List Input) : (State.launch p src inputs).hdrSent = false := rfl
@[simp] theorem launch_chunk (p : LenBits) (src : List Byte) (inputs : List Input) : (State.launch p src inputs).chunk = Vector.replicate 256 0 := rfl
@[simp] theorem launch_chunkValid (p : LenBits) (src : List Byte) (inputs : List Input) : (State.launch p src inputs).chunkValid = false := rfl
@[simp] theorem launch_slice (p : LenBits) (src : List Byte) (inputs : List Input) : (State.launch p src inputs).slice = Vector.replicate 8 0 := rfl
@[simp] theorem launch_sliceValid (p : LenBits) (src : List Byte) (inputs : List Input) : (State.launch p src inputs).sliceValid = false := rfl
@[simp] theorem launch_line (p : LenBits) (src : List Byte) (inputs : List Input) : (State.launch p src inputs).line = Vector.replicate 128 0 := rfl
@[simp] theorem launch_src (p : LenBits) (src : List Byte) (inputs : List Input) : (State.launch p src inputs).src = src := rfl
@[simp] theorem launch_out (p : LenBits) (src : List Byte) (inputs : List Input) : (State.launch p src inputs).out = [] := rfl
@[simp] theorem launch_inputs (p : LenBits) (src : List Byte) (inputs : List Input) : (State.launch p src inputs).inputs = inputs := rfl
@[simp] theorem launch_replies (p : LenBits) (src : List Byte) (inputs : List Input) : (State.launch p src inputs).replies = [] := rfl

/-! ### The reset event (70_reset_and_hazards.md R154) -/

@[simp] theorem resetEvent_lenBits (src : List Byte) (s : State) : (resetEvent src s).lenBits = s.lenBits := rfl
@[simp] theorem resetEvent_len (src : List Byte) (s : State) : (resetEvent src s).len = 0 := rfl
@[simp] theorem resetEvent_pal (src : List Byte) (s : State) : (resetEvent src s).pal = Config.grayRamp := rfl
@[simp] theorem resetEvent_auto (src : List Byte) (s : State) : (resetEvent src s).auto = true := rfl
@[simp] theorem resetEvent_phase (src : List Byte) (s : State) : (resetEvent src s).phase = .idle := rfl
@[simp] theorem resetEvent_err (src : List Byte) (s : State) : (resetEvent src s).err = .none := rfl
@[simp] theorem resetEvent_errOp (src : List Byte) (s : State) : (resetEvent src s).errOp = 0 := rfl
@[simp] theorem resetEvent_nstrips (src : List Byte) (s : State) : (resetEvent src s).nstrips = 0 := rfl
@[simp] theorem resetEvent_strip (src : List Byte) (s : State) : (resetEvent src s).strip = 0 := rfl
@[simp] theorem resetEvent_lines (src : List Byte) (s : State) : (resetEvent src s).lines = 0 := rfl
@[simp] theorem resetEvent_lineLen (src : List Byte) (s : State) : (resetEvent src s).lineLen = 0 := rfl
@[simp] theorem resetEvent_cur (src : List Byte) (s : State) : (resetEvent src s).cur = 0 := rfl
@[simp] theorem resetEvent_hdrSent (src : List Byte) (s : State) : (resetEvent src s).hdrSent = false := rfl
@[simp] theorem resetEvent_chunk (src : List Byte) (s : State) : (resetEvent src s).chunk = Vector.replicate 256 0 := rfl
@[simp] theorem resetEvent_chunkValid (src : List Byte) (s : State) : (resetEvent src s).chunkValid = false := rfl
@[simp] theorem resetEvent_slice (src : List Byte) (s : State) : (resetEvent src s).slice = Vector.replicate 8 0 := rfl
@[simp] theorem resetEvent_sliceValid (src : List Byte) (s : State) : (resetEvent src s).sliceValid = false := rfl
@[simp] theorem resetEvent_line (src : List Byte) (s : State) : (resetEvent src s).line = Vector.replicate 128 0 := rfl
@[simp] theorem resetEvent_src (src : List Byte) (s : State) : (resetEvent src s).src = src := rfl
@[simp] theorem resetEvent_out (src : List Byte) (s : State) : (resetEvent src s).out = s.out := rfl
@[simp] theorem resetEvent_inputs (src : List Byte) (s : State) : (resetEvent src s).inputs = s.inputs := rfl
@[simp] theorem resetEvent_replies (src : List Byte) (s : State) : (resetEvent src s).replies = s.replies := rfl

end Sys2Proof.Machine
end

