-- ==== Sys2Proof/Laws/Ops.lean ====
section
/-! SUPPORT. For each shared operation, what it can do, said once: cutting to a width, the gate, a precondition and
SrcRead. -/

namespace Sys2Proof

/-- LEN_BITS never exceeds the width of a host register, so a value below 2 ^ LEN_BITS is a 32-bit word. -/
theorem LenBits.two_pow_le (p : LenBits) : 2 ^ p.bits ≤ 2 ^ 32 := Nat.pow_le_pow_right (by decide) p.le_thirtyTwo

/-- `2 ^ LEN_BITS` is 256 times `2 ^ (LEN_BITS − 8)`. -/
theorem LenBits.two_pow_bits (p : LenBits) : 2 ^ p.bits = 256 * 2 ^ p.stripBits := by
  have h := p.nine_le
  rw [LenBits.stripBits, ← show 2 ^ 8 = 256 from rfl, ← pow_add]
  congr 1
  omega

/-- `2 ^ (LEN_BITS − 5)` is 8 times `2 ^ (LEN_BITS − 8)`. -/
theorem LenBits.two_pow_lineBits (p : LenBits) : 2 ^ p.lineBits = 8 * 2 ^ p.stripBits := by
  have h := p.nine_le
  rw [LenBits.stripBits, LenBits.lineBits, ← show 2 ^ 3 = 8 from rfl, ← pow_add]
  congr 1
  omega

end Sys2Proof

namespace Sys2Proof.Machine

/-! ### Cutting to a width -/

theorem truncTo_toNat (n : Nat) (v : Word) : (truncTo n v).toNat = v.toNat % 2 ^ n := by
  have h : v.toNat % 2 ^ n < 2 ^ 32 := lt_of_le_of_lt (Nat.mod_le _ _) v.isLt
  simpa [truncTo] using h

theorem truncTo_eq_self {n : Nat} {v : Word} (h : v.toNat < 2 ^ n) : truncTo n v = v :=
  BitVec.eq_of_toNat_eq (by rw [truncTo_toNat, Nat.mod_eq_of_lt h])

theorem truncTo_lt (n : Nat) (v : Word) : (truncTo n v).toNat < 2 ^ n := by
  rw [truncTo_toNat]
  exact Nat.mod_lt _ (Nat.two_pow_pos n)

/-! ### The phase gate and a precondition -/

theorem throughGate_error {i : Instr} {s : State} {body : Result} (h : s.phase = .error) :
    throughGate i s body = .next s := by simp [throughGate, h]

theorem throughGate_wrong {i : Instr} {s : State} {body : Result} (he : s.phase ≠ .error) (h : s.phase ≠ gatePhase i) :
    throughGate i s body = .next (raiseFault .sequenceError (encode i) s) := by simp [throughGate, he, h]

theorem throughGate_right {i : Instr} {s : State} {body : Result} (h : s.phase = gatePhase i) :
    throughGate i s body = body := by
  have he : s.phase ≠ .error := by rw [h]; cases i <;> simp [gatePhase]
  rw [throughGate, if_neg he, if_pos h]

theorem requiring_true {ok : Bool} {i : Instr} {s : State} {body : Result} (h : ok = true) :
    requiring ok i s body = body := by simp [requiring, h]

theorem requiring_false {ok : Bool} {i : Instr} {s : State} {body : Result} (h : ok = false) :
    requiring ok i s body = .next (raiseFault .sequenceError (encode i) s) := by simp [requiring, h]

/-- All the gate can do. -/
theorem throughGate_cases {i : Instr} {s t : State} {body : Result} (h : throughGate i s body = .next t) :
    (s.phase = .error ∧ t = s) ∨
      (s.phase ≠ .error ∧ s.phase ≠ gatePhase i ∧ t = raiseFault .sequenceError (encode i) s) ∨
      (s.phase = gatePhase i ∧ body = .next t) := by
  by_cases he : s.phase = .error
  · rw [throughGate_error he] at h
    exact .inl ⟨he, (Host.Outcome.next.inj h).symm⟩
  by_cases hg : s.phase = gatePhase i
  · rw [throughGate_right hg] at h
    exact .inr (.inr ⟨hg, h⟩)
  · rw [throughGate_wrong he hg] at h
    exact .inr (.inl ⟨he, hg, (Host.Outcome.next.inj h).symm⟩)

/-- All a precondition can do. -/
theorem requiring_cases {ok : Bool} {i : Instr} {s t : State} {body : Result} (h : requiring ok i s body = .next t) :
    (ok = false ∧ t = raiseFault .sequenceError (encode i) s) ∨ (ok = true ∧ body = .next t) := by
  cases ok with
  | true => exact .inr ⟨rfl, h⟩
  | false => exact .inl ⟨rfl, (Host.Outcome.next.inj h).symm⟩

/-! ### SrcRead -/

theorem srcRead_byte {p : LenBits} {src : List Byte} {cur : Word} (h : cur.toNat < src.length) :
    srcRead p src cur = .byte src[cur.toNat] (truncTo p.bits (cur + 1)) := by
  simp [srcRead, Nat.ne_of_lt h, List.getElem?_eq_getElem h]

theorem srcRead_eos {p : LenBits} {src : List Byte} {cur : Word} (h : cur.toNat = src.length) :
    srcRead p src cur = .eos := by simp [srcRead, h]

theorem srcRead_pastEnd {p : LenBits} {src : List Byte} {cur : Word} (h : src.length < cur.toNat) :
    srcRead p src cur = .pastEnd := by
  simp [srcRead, Nat.ne_of_gt h, List.getElem?_eq_none (Nat.le_of_lt h)]

/-- Moving CUR by one where it does not wrap. -/
theorem cur_succ {p : LenBits} {cur : Word} (h : cur.toNat + 1 < 2 ^ p.bits) :
    (truncTo p.bits (cur + 1)).toNat = cur.toNat + 1 := by
  have := p.two_pow_le
  rw [truncTo_toNat, BitVec.toNat_add, show (1 : Word).toNat = 1 from rfl,
    Nat.mod_eq_of_lt (a := cur.toNat + 1) (by omega), Nat.mod_eq_of_lt h]

/-- With enough bytes and no wrap, `srcTake n` takes the next `n` bytes of the Source, in order. -/
theorem srcTake_full {p : LenBits} {src : List Byte} {n : Nat} {cur : Word} (hl : cur.toNat + n ≤ src.length)
    (hw : cur.toNat + n < 2 ^ p.bits) :
    srcTake p src n cur = .full ((src.drop cur.toNat).take n) (BitVec.ofNat 32 (cur.toNat + n)) := by
  induction n generalizing cur with
  | zero => simp [srcTake]
  | succ n ih =>
    have hc : cur.toNat < src.length := by omega
    have hs : (truncTo p.bits (cur + 1)).toNat = cur.toNat + 1 := cur_succ (by omega)
    have hr := ih (cur := truncTo p.bits (cur + 1)) (by omega) (by omega)
    simp only [srcTake, srcRead_byte hc, hr, hs]
    congr 1
    · rw [List.drop_eq_getElem_cons hc, List.take_succ_cons]
    · congr 1
      omega

/-- With too few bytes left, `srcTake n` consumes them all and meets EOS. -/
theorem srcTake_short {p : LenBits} {src : List Byte} {n : Nat} {cur : Word} (hc : cur.toNat ≤ src.length)
    (hl : src.length < cur.toNat + n) (hw : src.length < 2 ^ p.bits) :
    srcTake p src n cur = .short (BitVec.ofNat 32 src.length) := by
  induction n generalizing cur with
  | zero => omega
  | succ n ih =>
    rcases Nat.eq_or_lt_of_le hc with heq | hlt
    · simp only [srcTake, srcRead_eos heq, ← heq]
      simp
    · have hs : (truncTo p.bits (cur + 1)).toNat = cur.toNat + 1 := cur_succ (by omega)
      simp only [srcTake, srcRead_byte hlt, ih (cur := truncTo p.bits (cur + 1)) (by omega) (by omega)]

/-- Whatever the cursor, meeting EOS leaves it at the end of the Source. -/
theorem srcTake_short_length {p : LenBits} {src : List Byte} {n : Nat} {cur cur' : Word}
    (h : srcTake p src n cur = .short cur') : cur'.toNat = src.length := by
  induction n generalizing cur with
  | zero => simp [srcTake] at h
  | succ n ih =>
    rcases Nat.lt_trichotomy cur.toNat src.length with hlt | heq | hgt
    · simp only [srcTake, srcRead_byte hlt] at h
      split at h <;> simp only [Taken.short.injEq, reduceCtorEq] at h
      subst h
      exact ih ‹_›
    · simp only [srcTake, srcRead_eos heq, Taken.short.injEq] at h
      rw [← h, heq]
    · simp only [srcTake, srcRead_pastEnd hgt, reduceCtorEq] at h

/-- EOS comes only where fewer bytes are left than asked for, whatever the cursor. -/
theorem srcTake_short_lt {p : LenBits} {src : List Byte} {n : Nat} {cur cur' : Word}
    (h : srcTake p src n cur = .short cur') : src.length < cur.toNat + n := by
  induction n generalizing cur with
  | zero => simp [srcTake] at h
  | succ n ih =>
    rcases Nat.lt_or_ge cur.toNat src.length with hlt | hge
    · have hs : (truncTo p.bits (cur + 1)).toNat ≤ cur.toNat + 1 := by
        rw [truncTo_toNat, BitVec.toNat_add]
        exact (Nat.mod_le _ _).trans (Nat.mod_le _ _)
      simp only [srcTake, srcRead_byte hlt] at h
      split at h <;> simp only [Taken.short.injEq, reduceCtorEq] at h
      subst h
      have := ih ‹_›
      omega
    · omega

/-- From a cursor inside the Source, SrcRead always has an answer. -/
theorem srcTake_ne_pastEnd {p : LenBits} {src : List Byte} {n : Nat} {cur : Word} (hc : cur.toNat ≤ src.length) :
    srcTake p src n cur ≠ .pastEnd := by
  induction n generalizing cur with
  | zero => simp [srcTake]
  | succ n ih =>
    rcases Nat.eq_or_lt_of_le hc with heq | hlt
    · simp [srcTake, srcRead_eos heq]
    · have hs : (truncTo p.bits (cur + 1)).toNat ≤ cur.toNat + 1 := by
        rw [truncTo_toNat, BitVec.toNat_add]
        exact (Nat.mod_le _ _).trans (Nat.mod_le _ _)
      have := ih (cur := truncTo p.bits (cur + 1)) (by omega)
      simp only [srcTake, srcRead_byte hlt]
      split <;> simp_all

/-- Entry `i` of CHUNK filled from the Source. -/
theorem chunkOf_getElem {src : List Byte} {k : Nat} (h : k + 256 ≤ src.length) (i : Fin 256) :
    src[k + i.val]? = some (chunkOf ((src.drop k).take 256))[i.val] := by
  have hi : k + i.val < src.length := by omega
  simp [chunkOf, List.getElem?_drop, hi]

end Sys2Proof.Machine
end

