-- ==== Sys2Proof/Laws/Exec.lean ====
section
/-! SUPPORT. What an operation can do, said once: `exec_cases` splits a next state of `exec` into the gate's three ways,
and `OwnEffect` lists what each operation does once its checks have passed. `step_cases` does the same for one step. -/

namespace Sys2Proof.Machine

/-- What an operation does to `s` once the gate and its preconditions have passed, its own fault among it. -/
inductive OwnEffect : Instr → State → State → Prop
  | start {s : State} (h0 : s.len.toNat ≠ 0) (hm : s.len.toNat % 256 = 0) : OwnEffect .start s (beginConversion s)
  | badLength {s : State} (h : s.len.toNat = 0 ∨ s.len.toNat % 256 ≠ 0) :
      OwnEffect .start s (raiseFault .invalidInputSize (encode .start) s)
  | emitHeader {s : State} (h : s.hdrSent = false) :
      OwnEffect .emitHeader s { emit (.header (imageHeader s)) s with hdrSent := true }
  | readStrip {s : State} {bytes : List Byte} {cur : Word} (hh : s.hdrSent = true) (hs : s.strip.toNat < s.nstrips.toNat)
      (hl : s.lines.toNat = 8 * s.strip.toNat) (hn : s.lineLen = 0) (hv : s.sliceValid = false)
      (ht : srcTake s.lenBits s.src 256 s.cur = .full bytes cur) :
      OwnEffect .readStrip s { s with
        cur := cur
        chunk := chunkOf bytes
        chunkValid := true
        strip := truncTo s.lenBits.stripBits (s.strip + 1) }
  | truncated {s : State} {cur : Word} (hh : s.hdrSent = true) (hs : s.strip.toNat < s.nstrips.toNat)
      (hl : s.lines.toNat = 8 * s.strip.toNat) (hn : s.lineLen = 0) (hv : s.sliceValid = false)
      (ht : srcTake s.lenBits s.src 256 s.cur = .short cur) :
      OwnEffect .readStrip s
        (raiseFault .streamTruncation (encode .readStrip) { s with cur := cur, chunkValid := false })
  | decodeSlice {cx : BitVec 4} {py : BitVec 3} {s : State} (hc : s.chunkValid = true) (hv : s.sliceValid = false) :
      OwnEffect (.decodeSlice cx py) s { s with
        slice := decodeRow (chunkByte s (loAddr cx py)) (chunkByte s (hiAddr cx py))
        sliceValid := true }
  | appendSlice {s : State} (hv : s.sliceValid = true) (hl : s.lineLen.toNat ≤ 120) :
      OwnEffect .appendSlice s { s with
        line := writeSlice s.line s.lineLen.toNat s.slice
        lineLen := s.lineLen + 8
        sliceValid := false }
  | emitScanline {s : State} (hl : s.lineLen.toNat = 128) (hs : s.lines.toNat < 8 * s.strip.toNat) :
      OwnEffect .emitScanline s { emit (.scanline ⟨s.lines, s.line⟩) s with
        lines := truncTo s.lenBits.lineBits (s.lines + 1)
        lineLen := 0 }
  | finish {s : State} (hh : s.hdrSent = true) (hs : s.strip = s.nstrips) (hl : s.lines.toNat = 8 * s.nstrips.toNat)
      (hn : s.lineLen = 0) (hv : s.sliceValid = false) : OwnEffect .finish s { s with phase := .done }

theorem nothingPending_iff {s : State} : nothingPending s = true ↔ s.lineLen = 0 ∧ s.sliceValid = false := by
  simp [nothingPending]

theorem nothingPending_false {s : State} (h : nothingPending s = false) : s.lineLen ≠ 0 ∨ s.sliceValid = true := by
  rw [← Bool.not_eq_true, nothingPending_iff, not_and_or, Bool.not_eq_false] at h
  exact h

theorem stripDone_iff {s : State} : stripDone s = true ↔ s.lines.toNat = 8 * s.strip.toNat := by simp [stripDone]

theorem badLength_iff {s : State} : badLength s = true ↔ s.len.toNat = 0 ∨ s.len.toNat % 256 ≠ 0 := by simp [badLength]

theorem autoRun_iff {s : State} : autoRun s = true ↔ s.phase = .run ∧ s.auto = true := by simp [autoRun]

theorem autoRun_false {s : State} (h : ¬(s.phase = .run ∧ s.auto = true)) : autoRun s = false := by
  rw [← Bool.not_eq_true, autoRun_iff]
  exact h

/-- Outside its phase an operation is out of sequence. -/
theorem outOfSequence_of_phase {i : Instr} {s : State} (h : s.phase ≠ gatePhase i) : OutOfSequence i s := by
  cases i with
  | start => exact h
  | _ => exact .inl h

/-- All an operation can answer as a next state. -/
theorem exec_cases {i : Instr} {s t : State} (h : exec i s = .next t) :
    (s.phase = .error ∧ t = s) ∨
      (s.phase ≠ .error ∧ OutOfSequence i s ∧ t = raiseFault .sequenceError (encode i) s) ∨
      (s.phase = gatePhase i ∧ OwnEffect i s t) := by
  suffices h' : (s.phase = .error ∧ t = s) ∨
      (s.phase ≠ .error ∧ s.phase ≠ gatePhase i ∧ t = raiseFault .sequenceError (encode i) s) ∨
      (s.phase = gatePhase i ∧ ((OutOfSequence i s ∧ t = raiseFault .sequenceError (encode i) s) ∨ OwnEffect i s t)) by
    rcases h' with h' | ⟨he, hg, rfl⟩ | ⟨hg, ⟨ho, rfl⟩ | h'⟩
    · exact .inl h'
    · exact .inr (.inl ⟨he, outOfSequence_of_phase hg, rfl⟩)
    · exact .inr (.inl ⟨by rw [hg]; cases i <;> simp [gatePhase], ho, rfl⟩)
    · exact .inr (.inr ⟨hg, h'⟩)
  cases i with
  | start =>
    refine (throughGate_cases h).imp id (Or.imp id (And.imp id fun hb => .inr ?_))
    by_cases hl : badLength s = true
    · rw [if_pos hl] at hb
      cases hb
      exact .badLength (badLength_iff.1 hl)
    · rw [if_neg hl] at hb
      cases hb
      rw [badLength_iff] at hl
      push Not at hl
      exact .start hl.1 hl.2
  | emitHeader =>
    refine (throughGate_cases h).imp id (Or.imp id (And.imp id fun hb => ?_))
    refine (requiring_cases hb).imp (And.imp (fun h1 => .inr (by simpa using h1)) id) fun ⟨h1, hb⟩ => ?_
    cases hb
    exact .emitHeader (by simpa using h1)
  | readStrip =>
    refine (throughGate_cases h).imp id (Or.imp id (And.imp id fun hb => ?_))
    rcases requiring_cases hb with hb | ⟨h1, hb⟩
    · exact .inl ⟨.inr (.inl hb.1), hb.2⟩
    rcases requiring_cases hb with hb | ⟨h2, hb⟩
    · exact .inl ⟨.inr (.inr (.inl (by simpa using hb.1))), hb.2⟩
    rcases requiring_cases hb with hb | ⟨h3, hb⟩
    · exact .inl ⟨.inr (.inr (.inr (.inl (by simpa [stripDone] using hb.1)))), hb.2⟩
    rcases requiring_cases hb with hb | ⟨h4, hb⟩
    · exact .inl ⟨.inr (.inr (.inr (.inr (nothingPending_false hb.1)))), hb.2⟩
    obtain ⟨h5, h6⟩ := nothingPending_iff.1 h4
    simp only [fillChunk] at hb
    split at hb
    · rename_i hx
      cases hb
      exact .inr (.readStrip h1 (by simpa using h2) (stripDone_iff.1 h3) h5 h6 hx)
    · rename_i hx
      cases hb
      exact .inr (.truncated h1 (by simpa using h2) (stripDone_iff.1 h3) h5 h6 hx)
    · contradiction
  | decodeSlice cx py =>
    refine (throughGate_cases h).imp id (Or.imp id (And.imp id fun hb => ?_))
    rcases requiring_cases hb with hb | ⟨h1, hb⟩
    · exact .inl ⟨.inr (.inl hb.1), hb.2⟩
    rcases requiring_cases hb with hb | ⟨h2, hb⟩
    · exact .inl ⟨.inr (.inr (by simpa using hb.1)), hb.2⟩
    cases hb
    exact .inr (.decodeSlice h1 (by simpa using h2))
  | appendSlice =>
    refine (throughGate_cases h).imp id (Or.imp id (And.imp id fun hb => ?_))
    rcases requiring_cases hb with hb | ⟨h1, hb⟩
    · exact .inl ⟨.inr (.inl hb.1), hb.2⟩
    rcases requiring_cases hb with hb | ⟨h2, hb⟩
    · exact .inl ⟨.inr (.inr (by simpa using hb.1)), hb.2⟩
    cases hb
    exact .inr (.appendSlice h1 (by simpa using h2))
  | emitScanline =>
    refine (throughGate_cases h).imp id (Or.imp id (And.imp id fun hb => ?_))
    rcases requiring_cases hb with hb | ⟨h1, hb⟩
    · exact .inl ⟨.inr (.inl (by simpa using hb.1)), hb.2⟩
    rcases requiring_cases hb with hb | ⟨h2, hb⟩
    · exact .inl ⟨.inr (.inr (by simpa using hb.1)), hb.2⟩
    cases hb
    exact .inr (.emitScanline (by simpa using h1) (by simpa using h2))
  | finish =>
    refine (throughGate_cases h).imp id (Or.imp id (And.imp id fun hb => ?_))
    rcases requiring_cases hb with hb | ⟨h1, hb⟩
    · exact .inl ⟨.inr (.inl hb.1), hb.2⟩
    rcases requiring_cases hb with hb | ⟨h2, hb⟩
    · exact .inl ⟨.inr (.inr (.inl (by simpa using hb.1))), hb.2⟩
    rcases requiring_cases hb with hb | ⟨h3, hb⟩
    · exact .inl ⟨.inr (.inr (.inr (.inl (by simpa using hb.1)))), hb.2⟩
    rcases requiring_cases hb with hb | ⟨h4, hb⟩
    · exact .inl ⟨.inr (.inr (.inr (.inr (nothingPending_false hb.1)))), hb.2⟩
    obtain ⟨h5, h6⟩ := nothingPending_iff.1 h4
    cases hb
    exact .inr (.finish h1 (by simpa using h2) (by simpa using h3) h5 h6)

/-- An operation that has its own effect is in sequence. -/
theorem OwnEffect.inSequence {i : Instr} {s t : State} (hg : s.phase = gatePhase i) (h : OwnEffect i s t) :
    ¬OutOfSequence i s := by
  cases h <;> simp_all [OutOfSequence, gatePhase]

/-- Past its gate and preconditions READ_STRIP fills CHUNK. -/
theorem exec_readStrip_ready {s : State} (hp : s.phase = .run) (hh : s.hdrSent = true)
    (hs : s.strip.toNat < s.nstrips.toNat) (hl : s.lines.toNat = 8 * s.strip.toNat) (hn : s.lineLen = 0)
    (hv : s.sliceValid = false) : exec .readStrip s = fillChunk s := by
  rw [exec, execReadStrip, throughGate_right (by simpa [gatePhase] using hp), requiring_true hh,
    requiring_true (by simpa using hs), requiring_true (stripDone_iff.2 hl), requiring_true (nothingPending_iff.2 ⟨hn, hv⟩)]

/-- The other way round: in its phase an operation has the effect `OwnEffect` lists. -/
theorem exec_of_ownEffect {i : Instr} {s t : State} (hg : s.phase = gatePhase i) (h : OwnEffect i s t) :
    exec i s = .next t := by
  cases h with
  | start h0 hm =>
    have hb : ¬badLength s = true := by rw [badLength_iff]; exact not_or.2 ⟨h0, fun h => h hm⟩
    rw [exec, execStart, throughGate_right hg, if_neg hb]
  | badLength h => rw [exec, execStart, throughGate_right hg, if_pos (badLength_iff.2 h)]
  | emitHeader h => rw [exec, execEmitHeader, throughGate_right hg, requiring_true (by simp [h])]
  | readStrip hh hs hl hn hv ht => rw [exec_readStrip_ready hg hh hs hl hn hv, fillChunk, ht]
  | truncated hh hs hl hn hv ht => rw [exec_readStrip_ready hg hh hs hl hn hv, fillChunk, ht]
  | decodeSlice hc hv =>
    rw [exec, execDecodeSlice, throughGate_right hg, requiring_true hc, requiring_true (by simp [hv])]
  | appendSlice hv hl =>
    rw [exec, execAppendSlice, throughGate_right hg, requiring_true hv, requiring_true (by simpa using hl)]
  | emitScanline hl hs =>
    rw [exec, execEmitScanline, throughGate_right hg, requiring_true (by simpa using hl),
      requiring_true (by simpa using hs)]
  | finish hh hs hl hn hv =>
    rw [exec, execFinish, throughGate_right hg, requiring_true hh, requiring_true (by simpa using hs),
      requiring_true (by simpa using hl), requiring_true (nothingPending_iff.2 ⟨hn, hv⟩)]

/-- In ERROR an operation has no effect. -/
theorem exec_in_error (i : Instr) {s : State} (h : s.phase = .error) : exec i s = .next s := by
  cases i <;> exact throughGate_error h

/-- In any other wrong phase an operation raises SEQUENCE_ERROR. -/
theorem exec_wrong_phase (i : Instr) {s : State} (he : s.phase ≠ .error) (h : s.phase ≠ gatePhase i) :
    exec i s = .next (raiseFault .sequenceError (encode i) s) := by
  cases i <;> exact throughGate_wrong he h

/-- What a host write can do besides running an operation. -/
inductive ConfigEffect (off : Nat) (v : Word) (s : State) : State → Prop
  | len (h : off = 0x00) (hp : s.phase = .idle) : ConfigEffect off v s { s with len := truncTo s.lenBits.bits v }
  | pal (k : Fin 4) (h : off = 0x01 + k.val) (hp : s.phase = .idle) :
      ConfigEffect off v s { s with pal := s.pal.set k.val (v.setWidth 24) k.isLt }
  | ctrl (h : off = 0x05) (hp : s.phase = .idle) : ConfigEffect off v s { s with auto := v.getLsbD 0 }
  | busy (h : off ≤ 0x05) (hp : s.phase = .run ∨ s.phase = .done) :
      ConfigEffect off v s (raiseFault .configWriteWhileBusy (BitVec.ofNat 16 off) s)

/-- What a CMD write can do. -/
inductive CmdEffect (w : OpWord) (s : State) : State → Prop
  | autoRun (hp : s.phase = .run) (ha : s.auto = true) : CmdEffect w s (raiseFault .sequenceError w s)
  | illegal {e : DecodeError} (hn : ¬(s.phase = .run ∧ s.auto = true)) (hd : decode w = .error e)
      (hp : s.phase ≠ .error) :
      CmdEffect w s (raiseFault .illegalOperation w s)
  | ignored {e : DecodeError} (hd : decode w = .error e) (hp : s.phase = .error) : CmdEffect w s s
  | runs {i : Instr} {t : State} (hn : ¬(s.phase = .run ∧ s.auto = true)) (hd : decode w = .ok i)
      (hx : exec i s = .next t) : CmdEffect w s t

theorem cmdWrite_cases {w : OpWord} {s t : State} (h : cmdWrite w s = .next t) : CmdEffect w s t := by
  simp only [cmdWrite] at h
  split at h
  · rename_i ha
    cases h
    exact .autoRun (autoRun_iff.1 ha).1 (autoRun_iff.1 ha).2
  · rename_i ha
    rw [autoRun_iff] at ha
    split at h
    · rename_i i hd
      exact .runs ha hd h
    · rename_i e hd
      simp only [illegalWord] at h
      split at h
      · rename_i hp
        cases h
        exact .ignored hd hp
      · rename_i hp
        cases h
        exact .illegal ha hd hp

theorem configWrite_cases {off : Nat} {s t u : State} (h : configWrite off s u = .next t) :
    (s.phase = .idle ∧ t = u) ∨
      ((s.phase = .run ∨ s.phase = .done) ∧ t = raiseFault .configWriteWhileBusy (BitVec.ofNat 16 off) s) ∨
      (s.phase = .error ∧ t = s) := by
  simp only [configWrite] at h
  split at h <;> cases h <;> simp [*]

/-- All a host write can do: nothing, a configuration write, or a CMD write. -/
theorem memWrite_cases {off : Nat} {v : Word} {s t : State} (h : memWrite off v s = .next t) :
    t = s ∨ ConfigEffect off v s t ∨ (off = 0x06 ∧ CmdEffect (v.setWidth 16) s t) := by
  unfold memWrite regAt at h
  split at h <;> rename_i hr <;> split at hr <;> cases hr
  all_goals first
    | exact .inl (Host.Outcome.next.inj h).symm
    | exact .inr (.inr ⟨rfl, cmdWrite_cases h⟩)
    | (rcases configWrite_cases h with ⟨hp, rfl⟩ | ⟨hp, rfl⟩ | ⟨_, rfl⟩
       · first
           | exact .inr (.inl (.len rfl hp))
           | exact .inr (.inl (.pal 0 rfl hp))
           | exact .inr (.inl (.pal 1 rfl hp))
           | exact .inr (.inl (.pal 2 rfl hp))
           | exact .inr (.inl (.pal 3 rfl hp))
           | exact .inr (.inl (.ctrl rfl hp))
       · exact .inr (.inl (.busy (by decide) hp))
       · exact .inl rfl)

/-- The state as the step's agent sees it: the script without the entry the step takes. -/
def State.tick (s : State) : State := { s with inputs := s.inputs.tail }

/-- All one step can do: wait, the Core's turn in an automatic run, a host read, a host write, or reset. -/
theorem step_cases {s t : State} (h : step s = .next t) :
    (t = s.tick ∧ ¬autoRun s ∧ (s.inputs = [] ∨ ∃ rest, s.inputs = .coreTurn :: rest)) ∨
    (autoRun s ∧ (s.inputs = [] ∨ ∃ rest, s.inputs = .coreTurn :: rest) ∧ exec (nextOp s.tick) s.tick = .next t) ∨
    (∃ off rest, s.inputs = .read off :: rest ∧ t = { s.tick with replies := s.replies ++ [memRead s.tick off] }) ∨
    (∃ off v rest, s.inputs = .write off v :: rest ∧ memWrite off v s.tick = .next t) ∨
    (∃ src rest, s.inputs = .reset src :: rest ∧ t = resetEvent src s.tick) := by
  have core : ∀ u : State, u = s.tick → (s.inputs = [] ∨ ∃ rest, s.inputs = .coreTurn :: rest) →
      coreTurn u = .next t →
      (t = s.tick ∧ ¬autoRun s ∧ (s.inputs = [] ∨ ∃ rest, s.inputs = .coreTurn :: rest)) ∨
      (autoRun s ∧ (s.inputs = [] ∨ ∃ rest, s.inputs = .coreTurn :: rest) ∧
        exec (nextOp s.tick) s.tick = .next t) := by
    rintro u rfl hi hu
    simp only [coreTurn] at hu
    split at hu
    · rename_i ha
      exact .inr ⟨ha, hi, hu⟩
    · rename_i ha
      exact .inl ⟨(Host.Outcome.next.inj hu).symm, ha, hi⟩
  unfold step at h
  split at h
  · rename_i hi
    have hs : s = s.tick := by cases s; cases hi; rfl
    rcases core s hs (.inl hi) h with hc | hc
    · exact .inl hc
    · exact .inr (.inl hc)
  · rename_i e rest hi
    have ht : ({ s with inputs := rest } : State) = s.tick := by simp [State.tick, hi]
    rw [ht] at h
    cases e with
    | read off => exact .inr (.inr (.inl ⟨off, rest, hi, (Host.Outcome.next.inj h).symm⟩))
    | write off v => exact .inr (.inr (.inr (.inl ⟨off, v, rest, hi, h⟩)))
    | reset src => exact .inr (.inr (.inr (.inr ⟨src, rest, hi, (Host.Outcome.next.inj h).symm⟩)))
    | coreTurn =>
      rcases core s.tick rfl (.inr ⟨rest, hi⟩) h with hc | hc
      · exact .inl hc
      · exact .inr (.inl hc)

/-! ### Runs -/

/-- A run's first step. -/
theorem run_succ (M : Host.Core) {s t : M.State} {k : Nat} (h : M.step s = .next t) : M.run (k + 1) s = M.run k t := by
  simp only [Host.Core.run, h]

/-- A run in two parts. -/
theorem run_add (M : Host.Core) {a : Nat} (b : Nat) {s t : M.State} (h : M.run a s = .next t) :
    M.run (a + b) s = M.run b t := by
  induction a generalizing s with
  | zero =>
    simp only [Host.Core.run, Host.Outcome.next.injEq] at h
    rw [h, Nat.zero_add]
  | succ a ih =>
    rw [Nat.add_right_comm]
    simp only [Host.Core.run] at h ⊢
    cases hs : M.step s <;> rw [hs] at h
    · exact ih h
    · contradiction
    · contradiction

end Sys2Proof.Machine
end

