-- ==== Sys2Proof/Laws/PerInstr.lean ====
section
/-! SUPPORT. Statements made once per operation of the table. -/

/-- The op word of an operation lies in its row of spec/opcode_table.json, and in no other row (30_encoding.md R67). -/
def Sys2Proof.Laws.InItsRow.Statement (i : Sys2Proof.Instr) : Prop :=
  Sys2Proof.opcodeTable.filter (fun r => Sys2Proof.encode i &&& r.mask == r.bits) = [Sys2Proof.tableRow i]

theorem Sys2Proof.Laws.InItsRow.start : Sys2Proof.Laws.InItsRow.Statement .start := by
  unfold Sys2Proof.Laws.InItsRow.Statement
  decide

theorem Sys2Proof.Laws.InItsRow.emitHeader : Sys2Proof.Laws.InItsRow.Statement .emitHeader := by
  unfold Sys2Proof.Laws.InItsRow.Statement
  decide

theorem Sys2Proof.Laws.InItsRow.readStrip : Sys2Proof.Laws.InItsRow.Statement .readStrip := by
  unfold Sys2Proof.Laws.InItsRow.Statement
  decide

theorem Sys2Proof.Laws.InItsRow.decodeSlice (cx : BitVec 4) (py : BitVec 3) :
    Sys2Proof.Laws.InItsRow.Statement (.decodeSlice cx py) := by
  unfold Sys2Proof.Laws.InItsRow.Statement
  revert cx py
  decide

theorem Sys2Proof.Laws.InItsRow.appendSlice : Sys2Proof.Laws.InItsRow.Statement .appendSlice := by
  unfold Sys2Proof.Laws.InItsRow.Statement
  decide

theorem Sys2Proof.Laws.InItsRow.emitScanline : Sys2Proof.Laws.InItsRow.Statement .emitScanline := by
  unfold Sys2Proof.Laws.InItsRow.Statement
  decide

theorem Sys2Proof.Laws.InItsRow.finish : Sys2Proof.Laws.InItsRow.Statement .finish := by
  unfold Sys2Proof.Laws.InItsRow.Statement
  decide
end

