-- ==== Sys2Proof/Machine/Assembler.lean ====
section
/-! DEFINITION. The text of the assembler notation (30_encoding.md R73): one operation per line, its operands decimal
or `0x` hexadecimal numbers, and a comment from `;` on; and the host's colour code (R75). A text is a list of
characters. No step reads this file. DESIGN CHOICE where R73 leaves a spelling open (log entry 9). -/

namespace Sys2Proof.Machine

/-- A blank between words. -/
def isBlank (c : Char) : Bool := c == ' ' || c == '\t'

/-- The line without its comment and without blanks at either end. -/
def bareLine (cs : List Char) : List Char :=
  (((cs.takeWhile (· ≠ ';')).dropWhile isBlank).reverse.dropWhile isBlank).reverse

/-- A decimal digit's value. -/
def decDigit? (c : Char) : Option Nat := if '0' ≤ c ∧ c ≤ '9' then some (c.toNat - '0'.toNat) else none

/-- A hexadecimal digit's value, in either case. -/
def hexDigit? (c : Char) : Option Nat :=
  if 'a' ≤ c ∧ c ≤ 'f' then some (c.toNat - 'a'.toNat + 10)
  else if 'A' ≤ c ∧ c ≤ 'F' then some (c.toNat - 'A'.toNat + 10)
  else decDigit? c

/-- Digits to a number in base `b`, most significant first, `acc` the value so far. -/
def digitsTo (b : Nat) (digit? : Char → Option Nat) (acc : Nat) : List Char → Option Nat
  | [] => some acc
  | c :: cs =>
    match digit? c with
    | some d => digitsTo b digit? (b * acc + d) cs
    | none => none

/-- A number: decimal digits, or `0x` and hexadecimal digits (R73). -/
def number? (cs : List Char) : Option Nat :=
  match cs with
  | [] => none
  | ['0', 'x'] => none
  | '0' :: 'x' :: ds => digitsTo 16 hexDigit? 0 ds
  | ds => digitsTo 10 decDigit? 0 ds

/-- A colour code of 6 hexadecimal digits as a palette entry, the first two digits red (R75). PRESUMED (log
entry 10): R75 itself takes the digit order and the case of the digits from general knowledge
(93_implementation_defined.md K1, K2). -/
def colourCode? (cs : List Char) : Option Rgb :=
  if cs.length = 6 then (digitsTo 16 hexDigit? 0 cs).map (BitVec.ofNat 24) else none

/-- The operands of a line: numbers separated by commas (R73). -/
def operands? (cs : List Char) : Option (List Nat) :=
  match cs with
  | [] => some []
  | cs => (cs.splitOn ',').mapM fun w => number? (bareLine w)

/-- One line of the notation (R73): `some none` for a line without an operation, `none` for a line the notation has no
reading of. -/
def parseLine (cs : List Char) : Option (Option AsmLine) :=
  let bare := bareLine cs
  let word := bare.takeWhile (!isBlank ·)
  match operands? ((bare.dropWhile (!isBlank ·)).dropWhile isBlank) with
  | none => none
  | some ops =>
    if word = [] then (if ops = [] then some none else none)
    else if word = "START".toList ∧ ops = [] then some (some .start)
    else if word = "EMIT_HEADER".toList ∧ ops = [] then some (some .emitHeader)
    else if word = "READ_STRIP".toList ∧ ops = [] then some (some .readStrip)
    else if word = "APPEND_SLICE".toList ∧ ops = [] then some (some .appendSlice)
    else if word = "EMIT_SCANLINE".toList ∧ ops = [] then some (some .emitScanline)
    else if word = "FINISH".toList ∧ ops = [] then some (some .finish)
    else if word = "CONVERT".toList ∧ ops = [] then some (some .convert)
    else if word = "BUILD_SCANLINE".toList then
      match ops with
      | [py] => some (some (.buildScanline py))
      | _ => none
    else if word = "DECODE_SLICE".toList then
      match ops with
      | [cx, py] => some (some (.decodeSlice cx py))
      | _ => none
    else none

end Sys2Proof.Machine
end

