-- ==== Sys2Proof/Tests/Slice0.lean ====
section
/-! SUPPORT. Tests of the model with expected results from 95_test_vectors.md or worked out from a named rule, and a
witness for the hypotheses of every statement that has some. -/

namespace Sys2Proof.Tests

open Sys2Proof Sys2Proof.Machine

/-! ### Well-formedness: R68's ranges, each check refusing an ill-formed line -/

theorem test_wellFormed_refuses_column_16 : (AsmLine.decodeSlice 16 0).wellFormed = false := by decide
theorem test_wellFormed_refuses_row_8 : (AsmLine.decodeSlice 0 8).wellFormed = false := by decide
theorem test_wellFormed_refuses_scanline_8 : (AsmLine.buildScanline 8).wellFormed = false := by decide
theorem test_assemble_refuses_ill_formed : (AsmLine.decodeSlice 15 8).assemble 1 = none := by decide
theorem test_wellFormed_takes_the_largest : (AsmLine.decodeSlice 15 7).wellFormed = true := by decide

/-! ### Decoding: words written out from R66 and R67, and V10's illegal words -/

theorem test_decode_start : decode 0b0001000000000000#16 = .ok .start := by decide
theorem test_decode_emitHeader : decode 0b0010000000000000#16 = .ok .emitHeader := by decide
theorem test_decode_readStrip : decode 0b0011000000000000#16 = .ok .readStrip := by decide
theorem test_decode_decodeSlice : decode 0b0100100001000000#16 = .ok (.decodeSlice 8 4) := by decide
theorem test_decode_appendSlice : decode 0b0101000000000000#16 = .ok .appendSlice := by decide
theorem test_decode_emitScanline : decode 0b0110000000000000#16 = .ok .emitScanline := by decide
theorem test_decode_finish : decode 0b0111000000000000#16 = .ok .finish := by decide

/-- V10, the rows that are Illegal. -/
theorem test_decode_illegal_words :
    [0x0000#16, 0x1001#16, 0x1800#16, 0x2FFF#16, 0x40F0#16, 0x4F78#16, 0x4F80#16, 0x4001#16, 0x4008#16, 0x5010#16,
      0x7100#16, 0x8000#16, 0xF000#16, 0xFFFF#16].all (fun w => (decodeTableWord 16 w.toNat).isNone) = true := by decide

/-- No word belongs to two rows of the opcode table: two rows differ in a bit both fix. -/
theorem test_opcode_rows_are_disjoint :
    opcodeTable.Pairwise (fun a b => a.bits &&& (a.mask &&& b.mask) ≠ b.bits &&& (a.mask &&& b.mask)) := by decide

/-! ### The assembler notation (R73, R74) and the colour code (R75) -/

theorem test_parse_decodeSlice :
    (parseLine "DECODE_SLICE 15, 0x7 ; R73".toList).map (·.map (·.assemble 1)) = some (some (some [0x4F70#16])) := by decide
theorem test_parse_comment_only : parseLine "; nothing".toList = some none := by decide
theorem test_parse_unknown_mnemonic : parseLine "NOP".toList = none := by decide
/-- R74: BUILD_SCANLINE is 33 operations and CONVERT `3 + 265 × R`. -/
theorem test_pseudo_operation_lengths :
    ((AsmLine.buildScanline 7).expand 1).length = 33 ∧ (AsmLine.convert.expand 2).length = 533 := by decide +kernel
/-- R75: `aaaaaa` is 0xAAAAAA, and the first two digits are red. -/
theorem test_colour_code :
    colourCode? "aaaaaa".toList = some 0xAAAAAA#24 ∧ colourCode? "FF8001".toList = some 0xFF8001#24 ∧
      colourCode? "12345".toList = none ∧ colourCode? "12345g".toList = none := by decide

/-! ### One step at a time -/

/-- What one step answers, asked of its next state. -/
def after (s : State) (ask : State → Bool) : Bool :=
  match step s with
  | .next t => ask t
  | .fault _ => false
  | .refused _ => false

/-- Manual RUN (AUTO = 0) with `k` strips to convert, the host about to write `w` to CMD. -/
def manual (k : Nat) (w : OpWord) : State :=
  { State.launch LenBits.full [] [.write 0x06 (w.setWidth 32)] with
    len := BitVec.ofNat 32 (256 * k), auto := false, phase := .run, nstrips := BitVec.ofNat 32 k }

/-- IDLE with LEN written and START about to be issued (V17). -/
def starting (size : Word) (src : List Byte := []) : State :=
  { State.launch LenBits.full src [.write 0x06 0x1000] with len := size }

/-- V17: LEN = 0x200 starts two strips. -/
theorem test_start_two_strips :
    after (starting 0x200) (fun t => statusWord t == 0x0001 && t.nstrips == 2 && t.cur == 0) = true := by decide
/-- V17: LEN = 0x101 is INVALID_INPUT_SIZE. -/
theorem test_start_invalid_size :
    after (starting 0x101) (fun t => statusWord t == 0x0103 && t.errOp == 0x1000 && t.nstrips == 0) = true := by decide

/-- V16, V9: the header of a one-strip conversion with the default palette. -/
theorem test_emitHeader :
    after (manual 1 0x2000) (fun t => statusWord t == 0x0005 &&
      t.out == [.header ⟨128, 8, 2, #v[0x000000, 0x555555, 0xAAAAAA, 0xFFFFFF]⟩]) = true := by decide
/-- V16: a second EMIT_HEADER. -/
theorem test_emitHeader_twice :
    after { manual 1 0x2000 with hdrSent := true } (fun t => statusWord t == 0x0407 && t.errOp == 0x2000) = true := by
  decide

/-- `00 01 .. FF`, the strip of V13 and P2. -/
def ramp : List Byte := (List.range 256).map (BitVec.ofNat 8)

/-- Ready to read strip 0 of the Source `src`. -/
def reading (src : List Byte) : State :=
  { manual 1 0x3000 with hdrSent := true, src := src, out := [.header ⟨128, 8, 2, Config.grayRamp⟩] }

/-- V13, first row. -/
theorem test_readStrip :
    after (reading ramp) (fun t => statusWord t == 0x000D && t.strip == 1 && t.cur == 256 && t.chunk[0] == 0 &&
      t.chunk[53] == 53 && t.chunk[255] == 255) = true := by decide +kernel
/-- V13, last row: an empty Source. -/
theorem test_readStrip_truncated :
    after (reading []) (fun t => statusWord t == 0x0207 && t.errOp == 0x3000 && t.cur == 0 && t.strip == 0) = true := by
  decide

/-- CHUNK holds `00 01 .. FF` but for R102's two bytes, and `w` is about to be issued. -/
def decoding (w : OpWord) : State :=
  { manual 1 w with
    hdrSent := true, strip := 1, cur := 256, chunkValid := true
    chunk := ((Vector.ofFn fun i : Fin 256 => BitVec.ofNat 8 i.val).set 53 0x0F).set 61 0x33 }

/-- R102: DECODE_SLICE 3, 5. -/
theorem test_decodeSlice : after (decoding 0x4350) (fun t => t.slice.toList == [0, 0, 2, 2, 1, 1, 3, 3] &&
    statusWord t == 0x001D) = true := by decide +kernel
/-- V12: with `CHUNK[i] = i`, DECODE_SLICE 15, 7. -/
theorem test_decodeSlice_last : after (decoding 0x4F70) (fun t => t.slice.toList == [3, 3, 3, 3, 2, 3, 3, 3]) = true := by
  decide +kernel

/-- V1, V2, V11: rows of DecodeRow. -/
theorem test_decodeRow :
    (decodeRow 0xFF 0x00).toList = [1, 1, 1, 1, 1, 1, 1, 1] ∧ (decodeRow 0x00 0xFF).toList = [2, 2, 2, 2, 2, 2, 2, 2] ∧
      (decodeRow 0x80 0x00).toList = [1, 0, 0, 0, 0, 0, 0, 0] ∧
      (decodeRow 0x81 0x42).toList = [1, 2, 0, 0, 0, 0, 2, 1] := by decide

/-- A slice waiting, `n` pixels in LINE. -/
def appending (n : BitVec 8) : State :=
  { decoding 0x5000 with slice := #v[1, 0, 0, 0, 0, 0, 0, 2], sliceValid := true, lineLen := n }

/-- V14: LINE_LEN = 120 is accepted. -/
theorem test_appendSlice :
    after (appending 120) (fun t => t.lineLen == 128 && !t.sliceValid && t.line[119] == 0 && t.line[120] == 1 &&
      t.line[127] == 2) = true := by decide
/-- V14: LINE_LEN = 128 is not. -/
theorem test_appendSlice_full :
    after (appending 128) (fun t => statusWord t == 0x041F && t.errOp == 0x5000 && t.lineLen == 128) = true := by decide

/-- `n` pixels in LINE, EMIT_SCANLINE about to be issued. -/
def emitting (n : BitVec 8) : State := { decoding 0x6000 with lineLen := n }

/-- V15, first row. -/
theorem test_emitScanline :
    after (emitting 128) (fun t => t.lines == 1 && t.lineLen == 0 &&
      t.out == [.scanline ⟨0, Vector.replicate 128 0⟩]) = true := by decide +kernel
/-- V15, second row. -/
theorem test_emitScanline_short :
    after (emitting 8) (fun t => statusWord t == 0x040F && t.errOp == 0x6000 && t.out == []) = true := by decide

/-- V18, first row. -/
theorem test_finish :
    after { decoding 0x7000 with lines := 8 } (fun t => statusWord t == 0x000E && t.phase == .done) = true := by decide
/-- P8: FINISH with LINES = 1. -/
theorem test_finish_early :
    after { decoding 0x7000 with lines := 1 } (fun t => statusWord t == 0x040F && t.errOp == 0x7000) = true := by decide

/-! ### Host accesses, reset and where a test's word goes -/

/-- V8: the registers after reset. -/
theorem test_reset_reads :
    (List.range 16).map (memRead State.reset) =
      [0, 0, 0x00555555, 0x00AAAAAA, 0x00FFFFFF, 1, 0, 0, 0, 0, 0, 0, 0, 0, 0, 0] := by decide
/-- V20: CTRL keeps bit 0 only, PAL0 its low 24 bits. -/
theorem test_config_write_widths :
    after { State.reset with inputs := [.write 0x05 0xFFFFFFFE] } (fun t => !t.auto) = true ∧
      after { State.reset with inputs := [.write 0x01 0xFF112233] } (fun t => t.pal[0] == 0x112233#24) = true := by decide
/-- R21 with LEN_BITS = 9: a write of 0x3FF keeps 0x1FF. -/
theorem test_len_is_cut_to_len_bits :
    after (State.launch LenBits.least [] [.write 0x00 0x3FF]) (fun t => t.len == 0x1FF#32) = true := by decide
/-- R131: PAL1 written in RUN. -/
theorem test_config_write_while_busy :
    after { manual 1 0 with inputs := [.write 0x02 0x00FF00] } (fun t => t.err == .configWriteWhileBusy &&
      t.errOp == 0x0002 && t.pal[1] == 0x555555#24) = true := by decide
/-- V21, third row: in an automatic run the port is the sequencer's, whatever the word. -/
theorem test_cmd_in_automatic_run :
    after { manual 1 0xFFFF with auto := true } (fun t => statusWord t == 0x0403 && t.errOp == 0xFFFF) = true := by decide
/-- V21, first row: an illegal word in IDLE. -/
theorem test_illegal_word_in_idle :
    after { State.reset with inputs := [.write 0x06 0] } (fun t => statusWord t == 0x0303 && t.errOp == 0) = true := by
  decide
/-- V21, last row: in ERROR a START has no effect. -/
theorem test_error_is_sticky :
    after { State.reset with phase := .error, err := .invalidInputSize, errOp := 0x1000, inputs := [.write 0x06 0x1000] }
      (fun t => statusWord t == 0x0103 && t.errOp == 0x1000) = true := by decide
/-- V19, seventh row: DECODE_SLICE 7, 5. -/
theorem test_nextOp :
    encode (nextOp { manual 2 0 with hdrSent := true, strip := 2, lines := 13, lineLen := 56 }) = 0x4750#16 := by decide
/-- The word placed by withFetchWord is the one the next step runs: START from reset meets LEN = 0 (V5). -/
theorem test_withFetchWord : after (State.reset.withFetchWord 16 0x1000) (fun t => statusWord t == 0x0103) = true := by
  decide

/-! ### States of the invariant, for the witnesses -/

/-- Ready to read strip 0: a state of the invariant, whatever the Source. -/
theorem reading_inv (src : List Byte) : (reading src).Inv where
  fits := by constructor <;> simp [reading, manual, State.launch, LenBits.full, LenBits.stripBits]
  curInSource := Nat.zero_le _
  lineLenRange := by simp [reading, manual, State.launch]
  stripRange := by simp [reading, manual, State.launch]
  linesRange := by simp [reading, manual, State.launch]
  beforeHeader := nofun
  noFault := fun _ => ⟨rfl, rfl⟩
  faultRecorded := nofun
  curIsStrips := fun _ => rfl
  chunkWhenStrip := by simp [reading, manual, State.launch]
  chunkIsStrip := nofun
  sliceNeedsStrip := nofun
  idleClear := nofun
  started := by simp [reading, manual, State.launch]
  doneComplete := nofun
  outOutline := fun _ => ⟨[], rfl⟩
  canonical := nofun

/-- The same in an automatic run. -/
def autoReading (src : List Byte) (script : List Input := []) : State := { reading src with auto := true, inputs := script }

theorem autoReading_inv (src : List Byte) (script : List Input) : (autoReading src script).Inv :=
  let h := reading_inv src
  { h with
    fits := ⟨h.fits.len, h.fits.nstrips, h.fits.strip, h.fits.lines, h.fits.cur⟩
    canonical := fun _ => ⟨fun _ => ⟨rfl, rfl⟩, nofun, nofun, nofun, fun _ => ⟨[], rfl⟩⟩ }

/-- IDLE after reset with LEN written, START about to be issued. -/
theorem starting_inv (size : Word) (src : List Byte) : (starting size src).Inv where
  fits := ⟨size.isLt, by simp [starting, State.launch], by simp [starting, State.launch], by simp [starting, State.launch],
    by simp [starting, State.launch]⟩
  curInSource := Nat.zero_le _
  lineLenRange := by simp [starting, State.launch]
  stripRange := by simp [starting, State.launch]
  linesRange := by simp [starting, State.launch]
  beforeHeader := fun _ => ⟨rfl, rfl, rfl⟩
  noFault := fun _ => ⟨rfl, rfl⟩
  faultRecorded := nofun
  curIsStrips := fun _ => rfl
  chunkWhenStrip := by simp [starting, State.launch]
  chunkIsStrip := nofun
  sliceNeedsStrip := nofun
  idleClear := fun _ => ⟨rfl, rfl⟩
  started := by simp [starting, State.launch]
  doneComplete := nofun
  outOutline := nofun
  canonical := fun _ => ⟨fun _ => ⟨rfl, rfl⟩, nofun, nofun, nofun, nofun⟩

/-- Every scanline of the strip in CHUNK is out, and FINISH is about to be issued. -/
def finishing (src : List Byte) (chunk : StripChunk) : State :=
  { manual 1 0x7000 with
    hdrSent := true, strip := 1, cur := 256, chunkValid := true, lines := 8, src := src, chunk := chunk
    out := .header ⟨128, 8, 2, Config.grayRamp⟩ ::
      (List.range 8).map fun y => .scanline ⟨BitVec.ofNat 32 y, imageRow src y⟩ }

theorem finishing_inv {src : List Byte} {chunk : StripChunk} (hl : 256 ≤ src.length)
    (hc : ∀ i : Fin 256, src[i.val]? = some chunk[i.val]) : (finishing src chunk).Inv where
  fits := by constructor <;> simp [finishing, manual, State.launch, LenBits.full, LenBits.stripBits, LenBits.lineBits]
  curInSource := by simpa [finishing] using hl
  lineLenRange := by simp [finishing, manual, State.launch]
  stripRange := by simp [finishing, manual]
  linesRange := by simp [finishing]
  beforeHeader := nofun
  noFault := fun _ => ⟨rfl, rfl⟩
  faultRecorded := nofun
  curIsStrips := fun _ => rfl
  chunkWhenStrip := by simp [finishing]
  chunkIsStrip := fun _ => ⟨by simp [finishing], fun i => by simpa [finishing] using hc i⟩
  sliceNeedsStrip := nofun
  idleClear := nofun
  started := by simp [finishing, manual]
  doneComplete := nofun
  outOutline := fun _ => ⟨[], rfl⟩
  canonical := nofun

/-! ### Witnesses: for each statement with hypotheses, states and operands that meet them together, clause by clause -/

theorem witness_DecodeSliceDecodesOneTileRow :
    ((decoding 0x4F70).phase = .run ∧ (decoding 0x4F70).chunkValid = true ∧ (decoding 0x4F70).sliceValid = false) ∧
      ((manual 1 0x4000).phase = .run ∧ (manual 1 0x4000).chunkValid = false) ∧
      ((appending 0).phase = .run ∧ (appending 0).sliceValid = true) := by decide

/-- The Source ends exactly with the strip. -/
theorem witness_ReadStripFillsTheChunk :
    (reading ramp).Inv ∧ (reading ramp).phase = .run ∧ (reading ramp).hdrSent = true ∧
      (reading ramp).strip.toNat < (reading ramp).nstrips.toNat ∧
      (reading ramp).lines.toNat = 8 * (reading ramp).strip.toNat ∧ (reading ramp).lineLen = 0 ∧
      (reading ramp).sliceValid = false ∧ (reading ramp).cur.toNat + 256 ≤ (reading ramp).src.length :=
  ⟨reading_inv _, by decide +kernel⟩

/-- One byte is missing. -/
theorem witness_ReadStripTruncationConsumesTheTail :
    (reading ramp.tail).Inv ∧ (reading ramp.tail).phase = .run ∧ (reading ramp.tail).hdrSent = true ∧
      (reading ramp.tail).strip.toNat < (reading ramp.tail).nstrips.toNat ∧
      (reading ramp.tail).lines.toNat = 8 * (reading ramp.tail).strip.toNat ∧ (reading ramp.tail).lineLen = 0 ∧
      (reading ramp.tail).sliceValid = false ∧
      (reading ramp.tail).src.length < (reading ramp.tail).cur.toNat + 256 :=
  ⟨reading_inv _, by decide +kernel⟩

/-- One clause fails at a time, each at its boundary. -/
theorem witness_ReadStripRefusedOutOfSequence :
    (manual 1 0x3000).phase = .run ∧ (manual 1 0x3000).hdrSent = false ∧
      (decoding 0x3000).nstrips.toNat ≤ (decoding 0x3000).strip.toNat ∧
      (decoding 0x3000).lines.toNat ≠ 8 * (decoding 0x3000).strip.toNat ∧ (emitting 8).lineLen ≠ 0 ∧
      (appending 0).sliceValid = true := by decide

theorem witness_AppendSliceConcatenates :
    ((appending 120).phase = .run ∧ (appending 120).sliceValid = true ∧ (appending 120).lineLen.toNat ≤ 120) ∧
      (decoding 0x5000).sliceValid = false ∧ 120 < (appending 121).lineLen.toNat := by decide

theorem witness_SixteenPairsBuildTheScanline :
    (decoding 0x4000).phase = .run ∧ (decoding 0x4000).chunkValid = true ∧ (decoding 0x4000).sliceValid = false ∧
      (decoding 0x4000).lineLen = 0 := by decide

/-- The last scanline of a strip, a line one slice short, and a line too many. -/
theorem witness_EmitScanlineEmitsTheLine :
    ({ emitting 128 with lines := 7 } : State).Fits ∧ (emitting 128).phase = .run ∧ (emitting 128).lineLen.toNat = 128 ∧
      7 < 8 * (emitting 128).strip.toNat ∧ (emitting 120).lineLen.toNat ≠ 128 ∧
      8 * (emitting 128).strip.toNat ≤ 8 :=
  ⟨by constructor <;> decide, by decide⟩

theorem witness_EmitHeaderSuppliesTheMetadata :
    (manual 1 0x2000).Fits ∧ (manual 1 0x2000).phase = .run ∧ (manual 1 0x2000).hdrSent = false ∧
      (reading []).Fits ∧ (reading []).phase = .run ∧ (reading []).hdrSent = true :=
  ⟨by constructor <;> decide, by decide, by decide, (reading_inv []).fits, by decide, by decide⟩

/-- The shortest legal length, 0, 255 and 257, and the other phases. -/
theorem witness_StartChecksTheLengthAndBegins :
    (starting 256).Fits ∧ (starting 256).phase = .idle ∧ (starting 256).len.toNat ≠ 0 ∧
      (starting 256).len.toNat % 256 = 0 ∧ (starting 0).Fits ∧ (starting 0).len.toNat = 0 ∧ (starting 255).Fits ∧
      (starting 255).len.toNat % 256 ≠ 0 ∧ (starting 257).len.toNat % 256 ≠ 0 ∧ (manual 1 0x1000).phase = .run :=
  ⟨(starting_inv _ _).fits, by decide, by decide, by decide, (starting_inv _ _).fits, by decide, (starting_inv _ _).fits,
    by decide, by decide, by decide⟩

theorem witness_FinishEndsACompleteConversion :
    ((finishing [] (Vector.replicate 256 0)).phase = .run ∧ (finishing [] (Vector.replicate 256 0)).hdrSent = true ∧
      (finishing [] (Vector.replicate 256 0)).strip = (finishing [] (Vector.replicate 256 0)).nstrips ∧
      (finishing [] (Vector.replicate 256 0)).lines.toNat = 8 * (finishing [] (Vector.replicate 256 0)).nstrips.toNat ∧
      (finishing [] (Vector.replicate 256 0)).lineLen = 0 ∧
      (finishing [] (Vector.replicate 256 0)).sliceValid = false) ∧
      (manual 1 0x7000).hdrSent = false ∧ (reading []).strip ≠ (reading []).nstrips ∧
      (decoding 0x7000).lines.toNat ≠ 8 * (decoding 0x7000).nstrips.toNat ∧ (emitting 8).lineLen ≠ 0 ∧
      (appending 0).sliceValid = true := by decide

/-- Every phase, and an illegal word. -/
theorem witness_PhaseGateAdmitsByPhase :
    ({ State.reset with phase := .error } : State).phase = .error ∧ (manual 1 0).phase = .run ∧
      ({ State.reset with phase := .done } : State).phase = .done ∧ State.reset.phase = .idle ∧
      Instr.finish ≠ .start ∧ decode 0x0000#16 = .error .unassignedOpcode ∧
      ¬(State.reset.phase = .run ∧ State.reset.auto = true) := by decide

theorem witness_CmdWriteRunsTheDecodedOperation :
    (manual 1 0x2000).inputs = .write 0x06 0x2000 :: [] ∧
      ¬((manual 1 0x2000).phase = .run ∧ (manual 1 0x2000).auto = true) ∧
      decode ((0x2000 : Word).setWidth 16) = .ok .emitHeader ∧ (manual 1 0x4088).phase ≠ .error ∧
      decode ((0x4088 : Word).setWidth 16) = .error .reservedBits ∧ (autoReading []).phase = .run ∧
      (autoReading []).auto = true := by decide

theorem witness_CoreTurnRunsNextOp :
    ((autoReading []).inputs = [] ∧ (autoReading []).phase = .run ∧ (autoReading []).auto = true) ∧
      (State.reset.inputs = [] ∧ ¬(State.reset.phase = .run ∧ State.reset.auto = true)) ∧
      (autoReading [] [.coreTurn]).inputs = .coreTurn :: [] := by decide

/-- V19's rows, one for each answer. -/
theorem witness_NextOpFollowsTheCounters :
    (manual 1 0).hdrSent = false ∧ ((emitting 128).hdrSent = true ∧ (emitting 128).lineLen = 128) ∧
      ((appending 120).hdrSent = true ∧ (appending 120).lineLen ≠ 128 ∧ (appending 120).sliceValid = true) ∧
      ((reading []).hdrSent = true ∧ (reading []).sliceValid = false ∧ (reading []).lineLen = 0 ∧
        (reading []).lines.toNat = 8 * (reading []).strip.toNat ∧
        (reading []).strip.toNat < (reading []).nstrips.toNat) ∧
      ((finishing [] (Vector.replicate 256 0)).lines.toNat = 8 * (finishing [] (Vector.replicate 256 0)).strip.toNat ∧
        (finishing [] (Vector.replicate 256 0)).nstrips.toNat ≤
          (finishing [] (Vector.replicate 256 0)).strip.toNat) ∧
      ((emitting 120).hdrSent = true ∧ (emitting 120).lineLen ≠ 128 ∧ (emitting 120).sliceValid = false ∧
        (emitting 120).lineLen ≠ 0) := by decide

theorem witness_ConfigurationWritesInIdle :
    ({ State.reset with inputs := [.write 0x05 1] } : State).inputs = .write 0x05 1 :: [] ∧
      State.reset.phase = .idle ∧ 0x04 = 0x01 + (3 : Fin 4).val := by decide

theorem witness_ConfigurationWriteWhileBusyFaults :
    ({ manual 1 0 with inputs := [.write 0x05 1] } : State).inputs = .write 0x05 1 :: [] ∧ (manual 1 0).phase = .run ∧
      0x05 ≤ 0x05 := by decide

/-- Any offset in ERROR, the first read-only offset and the first unassigned one elsewhere. -/
theorem witness_IgnoredWritesHaveNoEffect :
    ({ State.reset with phase := .error, inputs := [.write 0x00 1] } : State).inputs = .write 0x00 1 :: [] ∧
      ({ State.reset with phase := .error } : State).phase = .error ∧ 0x07 ≤ 0x07 ∧ 0x07 ≤ 0x0E := by decide

theorem witness_HostReadsReturnTheRegisters :
    ({ State.reset with inputs := [.read 0x0E] } : State).inputs = .read 0x0E :: [] ∧
      0x04 = 0x01 + (3 : Fin 4).val ∧ 0x0E ≤ 0x0E := by decide

theorem witness_ResetEventSetsTheResetValues :
    ({ manual 1 0 with inputs := [.reset [1]] } : State).inputs = .reset [1] :: [] := by decide

theorem witness_EveryStepKeepsTheInvariant : (reading ramp).Inv ∧ after (reading ramp) (fun _ => true) = true :=
  ⟨reading_inv _, by decide +kernel⟩

theorem witness_InvariantStatesNeverStop : (reading []).Inv := reading_inv _

/-- R157's writes of LEN and CMD from a launch reach RUN. -/
theorem witness_RunStatesMeetTheCounterBounds :
    (match Sys2Proof.core.run 2 (State.launch LenBits.least [] [.write 0x00 256, .write 0x06 0x1000]) with
      | .next t => decide (State.phase t = .run)
      | .fault _ => false
      | .refused _ => false) = true := by decide

/-- Each of the four ways PHASE moves. -/
theorem witness_PhaseMovesOnlyAsStated :
    after { manual 1 0 with inputs := [.reset []] } (fun t => t.phase == .idle) = true ∧
      after (starting 256) (fun t => t.phase == .run) = true ∧
      after { decoding 0x7000 with lines := 8 } (fun t => t.phase == .done) = true ∧
      after (manual 1 0x3000) (fun t => t.phase == .error) = true := by decide

theorem witness_FaultsArePrecise :
    (after (manual 1 0x3000) (fun t => t.phase == .error && t.err == .sequenceError) = true ∧
      (manual 1 0x3000).phase ≠ .error) ∧
      (after (reading []) (fun t => t.phase == .error && t.err == .streamTruncation) = true ∧
        (reading []).phase ≠ .error) := by decide

/-- One fault of each kind, and both ways to SEQUENCE_ERROR. -/
theorem witness_FaultsFollowTheTable :
    after (starting 0) (fun t => t.err == .invalidInputSize && t.phase == .error) = true ∧
      after (reading []) (fun t => t.err == .streamTruncation && t.phase == .error) = true ∧
      after (manual 1 0x0000) (fun t => t.err == .illegalOperation && t.phase == .error) = true ∧
      after (manual 1 0x7000) (fun t => t.err == .sequenceError && t.phase == .error) = true ∧
      after { manual 1 0x7000 with auto := true } (fun t => t.err == .sequenceError && t.phase == .error) = true ∧
      after { manual 1 0 with inputs := [.write 0x05 0] }
        (fun t => t.err == .configWriteWhileBusy && t.phase == .error) = true := by decide

/-- The clause SEQUENCE_ERROR of that statement names the operation issued: FINISH, out of sequence. -/
theorem witness_Issues_and_OutOfSequence :
    (manual 1 0x7000).Issues .finish ∧ OutOfSequence .finish (manual 1 0x7000) ∧
      (autoReading []).Issues .readStrip ∧ ¬OutOfSequence .readStrip (autoReading []) :=
  ⟨.inl ⟨by decide, 0x7000, ⟨0x7000, [], rfl, rfl⟩, by decide⟩, .inr (.inl rfl),
    .inr ⟨rfl, rfl, .inl rfl, by decide⟩, by simp [OutOfSequence, autoReading, reading, manual, State.launch]⟩

theorem witness_ErrorIsStickyUntilReset :
    ({ starting 256 with phase := .error } : State).phase = .error ∧
      after { starting 256 with phase := .error } (fun _ => true) = true ∧
      ∀ src rest, ({ starting 256 with phase := .error } : State).inputs ≠ .reset src :: rest :=
  ⟨by decide, by decide, nofun⟩

theorem witness_FirstFailingCheckWins :
    ((autoReading []).phase = .run ∧ (autoReading []).auto = true) ∧ (∀ i, decode 0x8000#16 ≠ .ok i) ∧
      State.reset.phase = .idle ∧ ((manual 1 0).phase = .run ∧ (manual 1 0).auto = false) ∧
      decode 0x7000#16 = .ok .finish ∧ 0x7000#16 ≠ 0x1000#16 ∧
      (decoding 0x3000).nstrips.toNat ≤ (decoding 0x3000).strip.toNat ∧
      (decoding 0x3000).src.length ≤ (decoding 0x3000).cur.toNat :=
  ⟨by decide, nofun, by decide⟩

theorem witness_ConfigurationIsFrozenOutsideIdle :
    after (manual 1 0x2000) (fun _ => true) = true ∧ (manual 1 0x2000).phase ≠ .idle ∧
      ∀ src rest, (manual 1 0x2000).inputs ≠ .reset src :: rest :=
  ⟨by decide, by decide, nofun⟩

theorem witness_CursorNeverMovesBack :
    (reading ramp).Inv ∧ after (reading ramp) (fun t => t.cur == 256) = true ∧
      ∀ src rest, (reading ramp).inputs ≠ .reset src :: rest :=
  ⟨reading_inv _, by decide +kernel, nofun⟩

theorem witness_OutputOnlyGrows :
    after (manual 1 0x2000) (fun t => t.out.length == 1) = true ∧
      after (manual 1 0x3000) (fun t => t.out == []) = true := by decide

/-- Two states that differ in CHUNK alone, which holds no value in either. -/
theorem witness_AbsentValuesAreNeverRead :
    ({ State.reset with chunk := Vector.replicate 256 1 } : State).visible = State.reset.visible ∧
      ({ State.reset with chunk := Vector.replicate 256 1 } : State) ≠ State.reset :=
  ⟨rfl, fun h => absurd (congrArg (fun s : State => s.chunk[0]) h) (by decide)⟩

theorem witness_DoneMeansACompleteImage :
    (∃ src chunk, (finishing src chunk).Inv) ∧
      after (finishing [] (Vector.replicate 256 0)) (fun t => t.phase == .done) = true :=
  ⟨⟨List.replicate 256 0, Vector.replicate 256 0, finishing_inv (Nat.le_of_eq List.length_replicate.symm) (fun i => by
    rw [List.getElem?_replicate, if_pos i.isLt, Vector.getElem_replicate])⟩, by decide⟩

theorem witness_SequencerStepsTowardDone :
    (autoReading ramp).Inv ∧ (autoReading ramp).phase = .run ∧ (autoReading ramp).auto = true ∧
      (autoReading ramp).len.toNat ≤ (autoReading ramp).src.length :=
  ⟨autoReading_inv _ _, by decide +kernel⟩

/-- An empty script, with a Source that ends at once. -/
theorem witness_SequencerNeverOutOfSequence :
    (autoReading []).Inv ∧ (autoReading []).phase = .run ∧ (autoReading []).auto = true ∧ (autoReading []).CoreIsNext ∧
      after (autoReading []) (fun t => t.err == .streamTruncation) = true :=
  ⟨autoReading_inv _ _, rfl, rfl, .inl rfl, by decide⟩

/-- The same with the Core's turn in the script. -/
theorem witness_SequencerNeverOutOfSequence_coreTurn :
    (autoReading [] [.coreTurn]).Inv ∧ (autoReading [] [.coreTurn]).phase = .run ∧
      (autoReading [] [.coreTurn]).auto = true ∧ (autoReading [] [.coreTurn]).CoreIsNext ∧
      after (autoReading [] [.coreTurn]) (fun t => t.err == .streamTruncation) = true :=
  ⟨autoReading_inv _ _, rfl, rfl, .inr ⟨_, rfl⟩, by decide⟩

/-- The Source is exactly as long as LEN says. -/
theorem witness_SequencerIssuesTheCanonicalSchedule :
    (starting 256 ramp).Inv ∧ (starting 256 ramp).phase = .idle ∧ (starting 256 ramp).auto = true ∧
      (starting 256 ramp).len.toNat ≤ (starting 256 ramp).src.length ∧
      (match exec .start (starting 256 ramp) with
        | .next t => decide (t.phase = .run)
        | .fault _ => false
        | .refused _ => false) = true :=
  ⟨starting_inv _ _, by decide +kernel⟩

/-- The shortest image under the least LEN_BITS, and the shortest Source for it. -/
theorem witness_AutomaticConversionEmitsTheWholeImage :
    1 ≤ 1 ∧ 256 * 1 < 2 ^ LenBits.least.bits ∧ 256 * 1 ≤ ramp.length := by decide +kernel

theorem witness_ShortSourceEndsInTruncation :
    1 ≤ 1 ∧ 256 * 1 < 2 ^ LenBits.least.bits ∧ ramp.tail.length < 256 * 1 := by decide +kernel

end Sys2Proof.Tests
end

section
/-! PROOF. A step never reads an entry of CHUNK, SLICE or LINE that holds no value (00_scope.md R14). The idea: it is
enough that a step of `s` and a step of `s.visible`, in which every such entry has a fixed value, answer the same up to
`visible`. This is a property of one function of the state, and it passes from the meanings up to `step`. -/

namespace Sys2Proof.Machine

/-! ### The values a buffer holds -/

@[simp] theorem heldChunk_true (c : StripChunk) : heldChunk true c = c := rfl

@[simp] theorem heldChunk_false (c : StripChunk) : heldChunk false c = Vector.replicate 256 0 := rfl

@[simp] theorem heldSlice_true (p : Slice) : heldSlice true p = p := rfl

@[simp] theorem heldSlice_false (p : Slice) : heldSlice false p = Vector.replicate 8 0 := rfl

@[simp] theorem heldChunk_heldChunk (v : Bool) (c : StripChunk) : heldChunk v (heldChunk v c) = heldChunk v c := by
  cases v <;> rfl

@[simp] theorem heldSlice_heldSlice (v : Bool) (p : Slice) : heldSlice v (heldSlice v p) = heldSlice v p := by
  cases v <;> rfl

theorem heldLine_getElem (n : BitVec 8) (l : LineBuf) (j : Nat) (hj : j < 128) :
    (heldLine n l)[j] = if j < n.toNat then l[j] else 0 := by simp [heldLine]

theorem writeSlice_getElem (l : LineBuf) (n : Nat) (p : Slice) (j : Nat) (hj : j < 128) :
    (writeSlice l n p)[j] = if h : n ≤ j ∧ j < n + 8 then p[j - n] else l[j] := by simp [writeSlice]

/-- LINE shows its entries below LINE_LEN and no others. -/
theorem heldLine_congr {n : BitVec 8} {l m : LineBuf} (h : ∀ (j : Nat) (hj : j < 128), j < n.toNat → l[j] = m[j]) :
    heldLine n l = heldLine n m := by
  ext1 j hj
  rw [heldLine_getElem, heldLine_getElem]
  split
  · exact h j hj ‹_›
  · rfl

@[simp] theorem heldLine_heldLine (n : BitVec 8) (l : LineBuf) : heldLine n (heldLine n l) = heldLine n l :=
  heldLine_congr fun j hj hn => by rw [heldLine_getElem, if_pos hn]

/-- With LINE_LEN = 0 LINE shows nothing of its pixels. -/
@[simp] theorem heldLine_zero (l : LineBuf) : heldLine 0#8 l = Vector.replicate 128 0 := by
  ext1 j hj
  simp [heldLine_getElem]

/-- A completed scanline is held as a whole. -/
theorem heldLine_full {n : BitVec 8} (h : n.toNat = 128) (l : LineBuf) : heldLine n l = l := by
  ext1 j hj
  rw [heldLine_getElem, if_pos (h ▸ hj)]

/-- The 8 entries APPEND_SLICE makes valid are the ones it writes, so what LINE held no value in stays unseen. -/
theorem heldLine_writeSlice {n : BitVec 8} (h : n.toNat ≤ 120) (l : LineBuf) (p : Slice) :
    heldLine (n + 8#8) (writeSlice (heldLine n l) n.toNat p) = heldLine (n + 8#8) (writeSlice l n.toNat p) :=
  heldLine_congr fun j hj hn => by
    have hlen : (n + 8#8).toNat = n.toNat + 8 := by
      rw [BitVec.toNat_add_of_lt (by simp; omega)]
      rfl
    rw [writeSlice_getElem, writeSlice_getElem]
    split
    · rfl
    · rw [heldLine_getElem, if_pos (by omega)]

/-! ### The visible part of a state -/

@[simp] theorem visible_visible (s : State) : s.visible.visible = s.visible := by simp [State.visible]

/-- A fault writes nothing that holds or hides a value. -/
theorem raiseFault_visible (c : ErrCode) (w : OpWord) (s : State) :
    (raiseFault c w s.visible).visible = (raiseFault c w s).visible :=
  congrArg (raiseFault c w) (visible_visible s)

/-! ### Functions of the state that read only what holds a value -/

/-- `f` answers the same, up to what is visible of the next state, when every entry that holds no value is set to a
fixed value. -/
def ReadsOnlyVisible (f : State → Result) : Prop :=
  ∀ s, mapNext State.visible (f s.visible) = mapNext State.visible (f s)

/-- Such a function does not tell states with the same visible part apart. -/
theorem ReadsOnlyVisible.congr {f : State → Result} (hf : ReadsOnlyVisible f) {s t : State}
    (h : s.visible = t.visible) : mapNext State.visible (f s) = mapNext State.visible (f t) := by rw [← hf s, h, hf t]

theorem mapNext_next_congr {s t : State} (h : s.visible = t.visible) :
    mapNext State.visible (.next s) = mapNext State.visible (.next t) := congrArg Host.Outcome.next h

theorem readsOnlyVisible_next : ReadsOnlyVisible .next := fun s => mapNext_next_congr (visible_visible s)

/-- The gate reads the phase alone. -/
theorem throughGate_visible (i : Instr) {s : State} {b b' : Result}
    (h : mapNext State.visible b' = mapNext State.visible b) :
    mapNext State.visible (throughGate i s.visible b') = mapNext State.visible (throughGate i s b) := by
  by_cases he : s.phase = .error
  · rw [throughGate_error (s := s) he, throughGate_error (s := s.visible) he]
    exact readsOnlyVisible_next s
  by_cases hg : s.phase = gatePhase i
  · rwa [throughGate_right (s := s) hg, throughGate_right (s := s.visible) hg]
  · rw [throughGate_wrong (s := s) he hg, throughGate_wrong (s := s.visible) he hg]
    exact mapNext_next_congr (raiseFault_visible _ _ s)

/-- What follows a precondition may rest on it. -/
theorem requiring_visible {ok : Bool} (i : Instr) {s : State} {b b' : Result}
    (h : ok = true → mapNext State.visible b' = mapNext State.visible b) :
    mapNext State.visible (requiring ok i s.visible b') = mapNext State.visible (requiring ok i s b) := by
  cases ok with
  | true => exact h rfl
  | false => exact mapNext_next_congr (raiseFault_visible _ _ s)

/-! ### The operations -/

theorem beginConversion_visible (s : State) : (beginConversion s.visible).visible = (beginConversion s).visible := by
  simp [State.visible, beginConversion]

/-- READ_STRIP writes all of CHUNK, or clears its valid bit. -/
theorem fillChunk_readsOnlyVisible : ReadsOnlyVisible fillChunk := by
  intro s
  rw [fillChunk, fillChunk]
  simp only [State.visible]
  cases srcTake s.lenBits s.src 256 s.cur with
  | full bytes cur => simp [mapNext, State.visible]
  | short cur => simp [mapNext, State.visible, raiseFault]
  | pastEnd => rfl

theorem exec_readsOnlyVisible (i : Instr) : ReadsOnlyVisible (exec i) := by
  intro s
  cases i with
  | start =>
    refine throughGate_visible _ ?_
    by_cases hl : badLength s = true
    · rw [if_pos hl, if_pos (show badLength s.visible = true from hl)]
      exact mapNext_next_congr (raiseFault_visible _ _ s)
    · rw [if_neg hl, if_neg (show ¬badLength s.visible = true from hl)]
      exact mapNext_next_congr (beginConversion_visible s)
  | emitHeader =>
    refine throughGate_visible _ (requiring_visible _ fun _ => mapNext_next_congr ?_)
    simp [State.visible, emit, imageHeader]
  | readStrip =>
    exact throughGate_visible _ (requiring_visible _ fun _ => requiring_visible _ fun _ => requiring_visible _ fun _ =>
      requiring_visible _ fun _ => fillChunk_readsOnlyVisible s)
  | decodeSlice cx py =>
    refine throughGate_visible _ (requiring_visible _ fun hc => requiring_visible _ fun _ => mapNext_next_congr ?_)
    have hchunk : s.chunkValid = true := hc
    simp [State.visible, chunkByte, hchunk]
  | appendSlice =>
    refine throughGate_visible _ (requiring_visible _ fun hv => requiring_visible _ fun hl => mapNext_next_congr ?_)
    have hslice : s.sliceValid = true := hv
    have hline : s.lineLen.toNat ≤ 120 := of_decide_eq_true hl
    simp [State.visible, hslice, heldLine_writeSlice hline]
  | emitScanline =>
    refine throughGate_visible _ (requiring_visible _ fun hl => requiring_visible _ fun _ => mapNext_next_congr ?_)
    have hline : s.lineLen.toNat = 128 := of_decide_eq_true hl
    simp [State.visible, emit, heldLine_full hline]
  | finish =>
    refine throughGate_visible _ (requiring_visible _ fun _ => requiring_visible _ fun _ => requiring_visible _ fun _ =>
      requiring_visible _ fun _ => mapNext_next_congr ?_)
    simp [State.visible]

/-! ### The agents -/

theorem configWrite_visible (off : Nat) {s u u' : State} (h : u'.visible = u.visible) :
    mapNext State.visible (configWrite off s.visible u') = mapNext State.visible (configWrite off s u) := by
  have hp : s.visible.phase = s.phase := rfl
  cases hs : s.phase <;> simp only [configWrite, hp, hs]
  case idle => exact mapNext_next_congr h
  case error => exact readsOnlyVisible_next s
  all_goals exact mapNext_next_congr (raiseFault_visible _ _ s)

theorem cmdWrite_readsOnlyVisible (w : OpWord) : ReadsOnlyVisible (cmdWrite w) := by
  intro s
  have ha : autoRun s.visible = autoRun s := rfl
  have hp : s.visible.phase = s.phase := rfl
  simp only [cmdWrite, illegalWord, ha, hp]
  split
  · exact mapNext_next_congr (raiseFault_visible _ _ s)
  cases decode w with
  | ok i => exact exec_readsOnlyVisible i s
  | error _ =>
    dsimp only
    split
    · exact readsOnlyVisible_next s
    · exact mapNext_next_congr (raiseFault_visible _ _ s)

theorem memWrite_readsOnlyVisible (off : Nat) (v : Word) : ReadsOnlyVisible (memWrite off v) := by
  intro s
  simp only [memWrite]
  cases regAt off with
  | none => exact readsOnlyVisible_next s
  | some r =>
    cases r with
    | len => exact configWrite_visible off (by simp [State.visible])
    | pal k => exact configWrite_visible off (by simp [State.visible])
    | ctrl => exact configWrite_visible off (by simp [State.visible])
    | cmd => exact cmdWrite_readsOnlyVisible _ s
    | _ => exact readsOnlyVisible_next s

theorem coreTurn_readsOnlyVisible : ReadsOnlyVisible coreTurn := by
  intro s
  have ha : autoRun s.visible = autoRun s := rfl
  simp only [coreTurn, ha]
  split
  · exact exec_readsOnlyVisible (nextOp s) s
  · exact readsOnlyVisible_next s

theorem takeInput_readsOnlyVisible (e : Input) : ReadsOnlyVisible (takeInput e) := by
  intro s
  cases e with
  | read off =>
    have hr : memRead s.visible off = memRead s off := by
      simp only [memRead]
      cases regAt off with
      | none => rfl
      | some r => cases r <;> rfl
    simp only [takeInput, hr]
    exact mapNext_next_congr (by simp [State.visible])
  | write off v => exact memWrite_readsOnlyVisible off v s
  | coreTurn => exact coreTurn_readsOnlyVisible s
  | reset src => rfl

theorem step_readsOnlyVisible : ReadsOnlyVisible step := by
  intro s
  have hi : s.visible.inputs = s.inputs := rfl
  simp only [step, hi]
  cases s.inputs with
  | nil => exact coreTurn_readsOnlyVisible s
  | cons e rest => exact takeInput_readsOnlyVisible e { s with inputs := rest }

/-- Settles O40: a step reads only what holds a value, so it does not tell apart two states that agree there. -/
theorem absentValuesAreNeverRead : Obligations.AbsentValuesAreNeverRead := by
  unfold Obligations.AbsentValuesAreNeverRead
  intro s t h
  exact step_readsOnlyVisible.congr h

end Sys2Proof.Machine
end

section
/-! PROOF. What a host read returns (10_state.md R20) and the fields of STATUS (R25, R27). -/

namespace Sys2Proof.Machine

theorem regAt_pal (k : Fin 4) : regAt (0x01 + k.val) = some (.pal k) := by
  revert k
  decide

/-- The last register of the map is CUR, at 0x0D. -/
theorem regAt_unassigned {off : Nat} (h : 0x0E ≤ off) : regAt off = none := by
  obtain ⟨k, rfl⟩ := Nat.exists_eq_add_of_le' h
  rfl

theorem memRead_pal (s : State) (k : Fin 4) : (memRead s (0x01 + k.val)).toNat = s.pal[k.val].toNat := by
  rw [memRead, regAt_pal]
  exact BitVec.toNat_setWidth_of_le (by decide)

theorem memRead_unassigned {s : State} {off : Nat} (h : 0x0E ≤ off) : memRead s off = 0 := by
  rw [memRead, regAt_unassigned h]

theorem ctrlWord_toNat (s : State) : (ctrlWord s).toNat = s.auto.toNat := by
  rw [ctrlWord]
  cases s.auto <;> rfl

/-- Settles O24: the step is the read's, and each offset is one register of the map. -/
theorem hostReadsReturnTheRegisters : Obligations.HostReadsReturnTheRegisters := by
  unfold Obligations.HostReadsReturnTheRegisters
  intro s off rest hi
  refine ⟨by rw [step, hi]; rfl, ?len, fun k h => h ▸ memRead_pal s k, fun h => h ▸ ctrlWord_toNat s, ?cmd, ?status,
    ?errOp, ?nstrips, ?strip, ?lines, ?lineLen, ?cur, memRead_unassigned⟩
  case errOp | lineLen => exact fun h => h ▸ BitVec.toNat_setWidth_of_le (by decide)
  case len | cmd | status | nstrips | strip | lines | cur => exact fun h => h ▸ rfl

/-! ### The fields of STATUS, each found by dropping the fields below it -/

theorem statusWord_phase (s : State) : (statusWord s).extractLsb' 0 2 = s.phase.code := by
  unfold statusWord
  rw [BitVec.extractLsb'_append_eq_of_add_le (by decide)]
  exact BitVec.extractLsb'_eq_self

theorem statusWord_hdrSent (s : State) : (statusWord s).getLsbD 2 = s.hdrSent := by
  unfold statusWord
  rw [BitVec.getLsbD_append, BitVec.getLsbD_append]
  simp

theorem statusWord_chunkValid (s : State) : (statusWord s).getLsbD 3 = s.chunkValid := by
  unfold statusWord
  rw [BitVec.getLsbD_append, BitVec.getLsbD_append, BitVec.getLsbD_append]
  simp

theorem statusWord_sliceValid (s : State) : (statusWord s).getLsbD 4 = s.sliceValid := by
  unfold statusWord
  rw [BitVec.getLsbD_append, BitVec.getLsbD_append, BitVec.getLsbD_append, BitVec.getLsbD_append]
  simp

theorem statusWord_reservedLow (s : State) : (statusWord s).extractLsb' 5 3 = 0 := by
  unfold statusWord
  iterate 4 rw [BitVec.extractLsb'_append_eq_of_le (by decide)]
  rw [BitVec.extractLsb'_append_eq_of_add_le (by decide)]
  rfl

theorem statusWord_err (s : State) : (statusWord s).extractLsb' 8 4 = s.err.code := by
  unfold statusWord
  iterate 5 rw [BitVec.extractLsb'_append_eq_of_le (by decide)]
  rw [BitVec.extractLsb'_append_eq_of_add_le (by decide)]
  exact BitVec.extractLsb'_eq_self

theorem statusWord_reservedHigh (s : State) : (statusWord s).extractLsb' 12 20 = 0 := by
  unfold statusWord
  iterate 6 rw [BitVec.extractLsb'_append_eq_of_le (by decide)]
  rfl

/-- Settles O25, field by field; the codes of PHASE and ERR are the tables of R26 and R27. -/
theorem statusWordShowsTheFlags : Obligations.StatusWordShowsTheFlags := by
  unfold Obligations.StatusWordShowsTheFlags
  intro s
  refine ⟨?_, statusWord_hdrSent s, statusWord_chunkValid s, statusWord_sliceValid s, statusWord_reservedLow s, ?_,
    statusWord_reservedHigh s⟩
  · rw [statusWord_phase]
    cases s.phase <;> rfl
  · rw [statusWord_err]
    cases s.err <;> rfl

end Sys2Proof.Machine
end

section
/-! PROOF. What one step can do (`StepEffect`), said once for the statements about every step; then how PHASE moves
(10_state.md R26), how OUT grows (R42, 43_image_assembler.md R106), and that no step reads OUT (R42). -/

namespace Sys2Proof.Machine

/-- What one step does: `step_cases` and the cases of a host write in one list. -/
inductive StepEffect (s : State) : State → Prop
  | waits : StepEffect s s.tick
  | reads (values : List Word) : StepEffect s { s.tick with replies := values }
  | configures {off : Nat} {v : Word} {t : State} (hc : ConfigEffect off v s.tick t) : StepEffect s t
  | refuses {c : ErrCode} (hc : c ≠ .none) (w : OpWord) : StepEffect s (raiseFault c w s.tick)
  | operates {i : Instr} {t : State} (hi : s.Issues i) (hx : exec i s.tick = .next t) : StepEffect s t
  | resets {src : List Byte} {rest : List Input} (hi : s.inputs = .reset src :: rest) :
      StepEffect s (resetEvent src s.tick)

theorem step_effect {s t : State} (h : step s = .next t) : StepEffect s t := by
  rcases step_cases h with ⟨rfl, _⟩ | ⟨ha, hi, hx⟩ | ⟨_, _, _, rfl⟩ | ⟨off, v, rest, hi, hw⟩ | ⟨_, _, hi, rfl⟩
  · exact .waits
  · obtain ⟨hp, hauto⟩ := autoRun_iff.1 ha
    exact .operates (.inr ⟨hp, hauto, hi, rfl⟩) hx
  · exact .reads _
  · rcases memWrite_cases hw with rfl | hc | ⟨rfl, hc⟩
    · exact .waits
    · exact .configures hc
    · cases hc with
      | autoRun => exact .refuses (c := .sequenceError) nofun _
      | illegal => exact .refuses (c := .illegalOperation) nofun _
      | ignored => exact .waits
      | runs hn hd hx => exact .operates (.inl ⟨hn, _, ⟨v, rest, hi, rfl⟩, hd⟩) hx
  · exact .resets hi

/-! ### PHASE -/

/-- A word is its opcode field and the 12 bits below it (30_encoding.md R66). -/
theorem word_toNat (w : OpWord) : w.toNat = 4096 * (opField w).toNat + (w.extractLsb' 0 12).toNat := by
  have := w.isLt
  simp only [opField, BitVec.extractLsb'_toNat, Nat.shiftRight_eq_div_pow]
  omega

theorem opField_of_formatN_start {op : BitVec 4} (h : formatN? op = some .start) : op.toNat = 1 := by
  revert op
  decide

/-- START has one word (30_encoding.md R67). -/
theorem word_of_decode_start {w : OpWord} (h : decode w = .ok .start) : w = 0x1000#16 := by
  simp only [decode] at h
  split at h
  · split at h <;> cases h
  split at h
  · next hop =>
    split at h
    · next hlow =>
      cases h
      have hlow : (w.extractLsb' 0 12).toNat = 0 := congrArg BitVec.toNat (eq_of_beq hlow)
      apply BitVec.eq_of_toNat_eq
      rw [word_toNat, opField_of_formatN_start hop, hlow]
      rfl
    · contradiction
  · contradiction

/-- An operation that changes PHASE is START, FINISH or a fault. -/
theorem exec_phase {i : Instr} {s t : State} (hx : exec i s = .next t) (hne : t.phase ≠ s.phase) :
    (i = .start ∧ s.phase = .idle ∧ t.phase = .run) ∨ (i = .finish ∧ s.phase = .run ∧ t.phase = .done) ∨
      (t.phase = .error ∧ t.err ≠ .none) := by
  rcases exec_cases hx with ⟨_, rfl⟩ | ⟨_, _, rfl⟩ | ⟨hp, he⟩
  · contradiction
  · exact .inr (.inr ⟨rfl, nofun⟩)
  cases he with
  | start => exact .inl ⟨rfl, hp, rfl⟩
  | finish => exact .inr (.inl ⟨rfl, hp, rfl⟩)
  | badLength | truncated => exact .inr (.inr ⟨rfl, nofun⟩)
  | emitHeader | readStrip | decodeSlice | appendSlice | emitScanline => contradiction

/-- A configuration write keeps PHASE or raises a fault. -/
theorem ConfigEffect.phase {off : Nat} {v : Word} {s t : State} (h : ConfigEffect off v s t) :
    t.phase = s.phase ∨ t.phase = .error ∧ t.err ≠ .none := by
  cases h with
  | len | pal | ctrl => exact .inl rfl
  | busy => exact .inr ⟨rfl, nofun⟩

/-- Settles O31: PHASE is written by reset, START, FINISH and fault entry. -/
theorem phaseMovesOnlyAsStated : Obligations.PhaseMovesOnlyAsStated := by
  unfold Obligations.PhaseMovesOnlyAsStated
  intro s s' hs hne
  have fault (h : s'.phase = .error ∧ s'.err ≠ .none) : s.phase ≠ .error ∧ s'.phase = .error ∧ s'.err ≠ .none :=
    ⟨fun he => hne (h.1.trans he.symm), h⟩
  cases step_effect hs with
  | waits | reads => contradiction
  | configures hc => exact .inr (.inr (.inr (fault (hc.phase.resolve_left hne))))
  | refuses hc => exact .inr (.inr (.inr (fault ⟨rfl, hc⟩)))
  | operates hi hx =>
    rcases exec_phase hx hne with ⟨rfl, hp, hr⟩ | ⟨rfl, hp, hd⟩ | hf
    · rcases hi with ⟨_, w, ⟨v, rest, hin, hw⟩, hdec⟩ | ⟨hrun, _⟩
      · exact .inr (.inl ⟨hp, hr, v, rest, hin, hw.trans (word_of_decode_start hdec)⟩)
      · exact absurd (hp.symm.trans hrun) nofun
    · exact .inr (.inr (.inl ⟨hp, hd, hx⟩))
    · exact .inr (.inr (.inr (fault hf)))
  | resets hi => exact .inl ⟨rfl, _, _, hi⟩

/-! ### OUT grows -/

theorem exec_out {i : Instr} {s t : State} (hx : exec i s = .next t) : t.out = s.out ∨ ∃ r, t.out = s.out ++ [r] := by
  rcases exec_cases hx with ⟨_, rfl⟩ | ⟨_, _, rfl⟩ | ⟨_, he⟩
  · exact .inl rfl
  · exact .inl rfl
  cases he with
  | emitHeader | emitScanline => exact .inr ⟨_, rfl⟩
  | start | badLength | readStrip | truncated | decodeSlice | appendSlice | finish => exact .inl rfl

/-- Settles O38: EMIT_HEADER and EMIT_SCANLINE append one record, and nothing else writes OUT. -/
theorem outputOnlyGrows : Obligations.OutputOnlyGrows := by
  unfold Obligations.OutputOnlyGrows
  intro s s' hs
  cases step_effect hs with
  | waits | reads | refuses | resets => exact .inl rfl
  | configures hc => cases hc <;> exact .inl rfl
  | operates _ hx => exact exec_out (s := s.tick) hx

/-! ### OUT is not read -/

/-- `s` with the records `before` in front of OUT. -/
def State.prependOut (before : List Record) (s : State) : State := { s with out := before ++ s.out }

@[simp] theorem State.prependOut_phase (before : List Record) (s : State) : (s.prependOut before).phase = s.phase := rfl

@[simp] theorem State.prependOut_inputs (before : List Record) (s : State) :
    (s.prependOut before).inputs = s.inputs := rfl

@[simp] theorem autoRun_prependOut (before : List Record) (s : State) : autoRun (s.prependOut before) = autoRun s := rfl

@[simp] theorem badLength_prependOut (before : List Record) (s : State) :
    badLength (s.prependOut before) = badLength s := rfl

section
variable {before : List Record}

theorem throughGate_prependOut {i : Instr} {s : State} {b b' : Result} (h : b' = mapNext (State.prependOut before) b) :
    throughGate i (s.prependOut before) b' = mapNext (State.prependOut before) (throughGate i s b) := by
  subst h
  unfold throughGate
  rw [State.prependOut_phase]
  split
  · rfl
  split <;> rfl

theorem requiring_prependOut {ok : Bool} {i : Instr} {s : State} {b b' : Result}
    (h : b' = mapNext (State.prependOut before) b) :
    requiring ok i (s.prependOut before) b' = mapNext (State.prependOut before) (requiring ok i s b) := by
  cases ok with
  | true => exact h
  | false => rfl

theorem fillChunk_prependOut (s : State) :
    fillChunk (s.prependOut before) = mapNext (State.prependOut before) (fillChunk s) := by
  unfold fillChunk
  rw [show srcTake (s.prependOut before).lenBits (s.prependOut before).src 256 (s.prependOut before).cur =
    srcTake s.lenBits s.src 256 s.cur from rfl]
  cases srcTake s.lenBits s.src 256 s.cur <;> rfl

/-- EMIT appends behind whatever stands in OUT. -/
theorem emit_prependOut (r : Record) (s : State) : emit r (s.prependOut before) = (emit r s).prependOut before := by
  simp [emit, State.prependOut]

theorem exec_prependOut (i : Instr) (s : State) :
    exec i (s.prependOut before) = mapNext (State.prependOut before) (exec i s) := by
  cases i with
  | start =>
    refine throughGate_prependOut ?_
    rw [badLength_prependOut]
    split <;> rfl
  | emitHeader =>
    refine throughGate_prependOut <| requiring_prependOut ?_
    rw [emit_prependOut]
    rfl
  | readStrip =>
    exact throughGate_prependOut <| requiring_prependOut <| requiring_prependOut <| requiring_prependOut <|
      requiring_prependOut <| fillChunk_prependOut s
  | decodeSlice cx py =>
    exact throughGate_prependOut <| requiring_prependOut <| requiring_prependOut rfl
  | appendSlice =>
    exact throughGate_prependOut <| requiring_prependOut <| requiring_prependOut rfl
  | emitScanline =>
    refine throughGate_prependOut <| requiring_prependOut <| requiring_prependOut ?_
    rw [emit_prependOut]
    rfl
  | finish =>
    exact throughGate_prependOut <| requiring_prependOut <| requiring_prependOut <| requiring_prependOut <|
      requiring_prependOut rfl

theorem configWrite_prependOut (off : Nat) {s u u' : State} (h : u' = u.prependOut before) :
    configWrite off (s.prependOut before) u' = mapNext (State.prependOut before) (configWrite off s u) := by
  subst h
  unfold configWrite
  rw [State.prependOut_phase]
  cases s.phase <;> rfl

theorem cmdWrite_prependOut (w : OpWord) (s : State) :
    cmdWrite w (s.prependOut before) = mapNext (State.prependOut before) (cmdWrite w s) := by
  unfold cmdWrite
  rw [autoRun_prependOut]
  split
  · rfl
  cases decode w with
  | ok i => exact exec_prependOut i s
  | error =>
    simp only [illegalWord]
    rw [State.prependOut_phase]
    split <;> rfl

theorem memWrite_prependOut (off : Nat) (v : Word) (s : State) :
    memWrite off v (s.prependOut before) = mapNext (State.prependOut before) (memWrite off v s) := by
  unfold memWrite
  cases regAt off with
  | none => rfl
  | some r =>
    cases r with
    | len | pal | ctrl => exact configWrite_prependOut off rfl
    | cmd => exact cmdWrite_prependOut _ s
    | status | errOp | nstrips | strip | lines | lineLen | cur => rfl

theorem coreTurn_prependOut (s : State) :
    coreTurn (s.prependOut before) = mapNext (State.prependOut before) (coreTurn s) := by
  unfold coreTurn
  rw [autoRun_prependOut]
  split
  · exact exec_prependOut (nextOp s) s
  · rfl

theorem step_prependOut (s : State) :
    step (s.prependOut before) = mapNext (State.prependOut before) (step s) := by
  unfold step
  rw [State.prependOut_inputs]
  cases s.inputs with
  | nil => exact coreTurn_prependOut s
  | cons e rest =>
    cases e with
    | read | reset => rfl
    | write off v => exact memWrite_prependOut off v { s with inputs := rest }
    | coreTurn => exact coreTurn_prependOut { s with inputs := rest }

end

/-- Settles O39: every part of a step commutes with putting records in front of OUT. -/
theorem outputIsNeverRead : Obligations.OutputIsNeverRead := by
  unfold Obligations.OutputIsNeverRead
  intro s before
  exact step_prependOut s

end Sys2Proof.Machine
end

section
/-! PROOF. The invariant holds after reset and every step keeps it (10_state.md R44, 20_memory.md R50, R59). One lemma
per way a step can go; `{ h with … }` in a lemma takes over every clause whose fields the step does not write. -/

namespace Sys2Proof.Machine

/-! ### What the loop of R94 leaves in each lane -/

theorem lsbPixel_eq (lo hi : Byte) : lsbPixel lo hi = BitVec.ofBool (hi.getLsbD 0) ++ BitVec.ofBool (lo.getLsbD 0) := by
  apply BitVec.eq_of_getLsbD_eq
  intro i hi
  rw [BitVec.getLsbD_append]
  interval_cases i <;> simp [lsbPixel]

@[simp] theorem lsbFirst_length (k : Nat) (lo hi : Byte) : (lsbFirst k lo hi).length = k := by
  induction k generalizing lo hi with
  | zero => rfl
  | succ k ih => simp [lsbFirst, ih]

/-- Value `n` of R94's step 3 is made of bit `n` of either byte. -/
theorem lsbFirst_getElem (lo hi : Byte) {k n : Nat} (h : n < (lsbFirst k lo hi).length) :
    (lsbFirst k lo hi)[n] = BitVec.ofBool (hi.getLsbD n) ++ BitVec.ofBool (lo.getLsbD n) := by
  induction k generalizing lo hi n with
  | zero => simp at h
  | succ k ih =>
    cases n with
    | zero => exact lsbPixel_eq lo hi
    | succ n => simp [lsbFirst, ih, Nat.add_comm 1]

theorem decodeRow_getElem (lo hi : Byte) (i : Nat) (h : i < 8) : (decodeRow lo hi)[i] = lanePixel lo hi i := by
  simp [decodeRow, lsbFirst_getElem, lanePixel]

/-! ### Reading the invariant -/

/-- Adding 1 to a counter that does not wrap. -/
theorem word_succ {v : Word} (h : v.toNat + 1 < 2 ^ 32) : (v + 1).toNat = v.toNat + 1 :=
  BitVec.toNat_add_of_lt h

/-- A strip has been read only after the header. -/
theorem State.Inv.headerFirst {s : State} (h : s.Inv) (hs : 1 ≤ s.strip.toNat) : s.hdrSent = true := by
  by_contra hh
  obtain ⟨h0, _, _⟩ := h.beforeHeader (by simpa using hh)
  simp [h0] at hs

theorem State.Inv.noSlice_of_noHeader {s : State} (h : s.Inv) (hh : s.hdrSent = false) : s.sliceValid = false := by
  by_contra hv
  simpa [hh] using h.headerFirst (h.sliceNeedsStrip (by simpa using hv))

/-- The next strip of the conversion lies within LEN, so CUR does not wrap on it. -/
theorem State.Inv.nextStrip_lt {s : State} (h : s.Inv) (hp : s.phase = .run) (hs : s.strip.toNat < s.nstrips.toNat) :
    s.cur.toNat + 256 < 2 ^ s.lenBits.bits := by
  obtain ⟨_, hlen⟩ := h.started (.inl hp)
  have hcur := h.curIsStrips (by simp [hp])
  have hfit := h.fits.len
  omega

/-- Before the header nothing of the datapath or OUT is claimed. -/
theorem State.Inv.canonical_of_noHeader {s : State} (h : s.Inv) (hh : s.hdrSent = false) : s.Canonical := by
  obtain ⟨_, _, hlen⟩ := h.beforeHeader hh
  have hv := h.noSlice_of_noHeader hh
  exact ⟨fun _ => ⟨hlen, hv⟩, by simp [hv], by simp [hlen], by simp [hv], by simp [hh]⟩

/-- In an automatic run DECODE_SLICE is issued only while a row of the strip in CHUNK is still to be built. -/
theorem State.Canonical.rowOpen {s : State} (hc : s.Canonical) (hi : s.Inv) {cx : BitVec 4} {py : BitVec 3}
    (h : nextOp s = .decodeSlice cx py) :
    s.lineLen.toNat < 128 ∧ s.lines.toNat < 8 * s.strip.toNat ∧ cx = BitVec.ofNat 4 (s.lineLen.toNat / 8) ∧
      py = BitVec.ofNat 3 (s.lines.toNat % 8) := by
  unfold nextOp at h
  split at h
  · contradiction
  split at h
  · contradiction
  split at h
  · contradiction
  split at h
  · split at h <;> contradiction
  cases h
  rename_i h128 _ hopen
  have hlen := hi.lineLenRange
  have hlines := hi.linesRange
  have hopen : s.lines.toNat ≠ 8 * s.strip.toNat := fun he => hopen ⟨he, by simp [(hc.stripClosed he).1]⟩
  exact ⟨by omega, by omega, rfl, rfl⟩

/-! ### Steps of the host -/

/-- The invariant says nothing of the script or the replies. -/
theorem State.Inv.withScript {s : State} (h : s.Inv) (script : List Input) (values : List Word) :
    ({ s with inputs := script, replies := values } : State).Inv :=
  { h with fits := { h.fits with }, canonical := fun ha => { h.canonical ha with } }

theorem State.Inv.tick {s : State} (h : s.Inv) : s.tick.Inv := h.withScript _ _

/-- Fault entry, with CUR and CHUNK_VALID as a truncated READ_STRIP leaves them (60_exceptions.md R143, R144). -/
theorem State.Inv.faulted {s : State} (h : s.Inv) {c : ErrCode} (hc : c ≠ .none) (w : OpWord) {cur : Word}
    {valid : Bool} (hsrc : cur.toNat ≤ s.src.length) (hfit : cur.toNat < 2 ^ s.lenBits.bits)
    (hv : valid = true → s.chunkValid = true) :
    (raiseFault c w { s with cur := cur, chunkValid := valid }).Inv :=
  { h with
    fits := { h.fits with cur := hfit }
    curInSource := hsrc
    noFault := by simp
    faultRecorded := fun _ => hc
    curIsStrips := by simp
    chunkWhenStrip := by simp
    chunkIsStrip := fun hcv => h.chunkIsStrip (hv hcv)
    idleClear := by simp
    started := by simp
    doneComplete := by simp
    canonical := fun ha => { h.canonical ha with } }

theorem State.Inv.raised {s : State} (h : s.Inv) {c : ErrCode} (hc : c ≠ .none) (w : OpWord) :
    (raiseFault c w s).Inv := h.faulted hc w h.curInSource h.fits.cur id

theorem State.Inv.configured {s t : State} (h : s.Inv) {off : Nat} {v : Word} (he : ConfigEffect off v s t) :
    t.Inv := by
  cases he with
  | len _ hp =>
    exact { h with
      fits := { h.fits with len := truncTo_lt _ _ }
      started := by simp [hp]
      canonical := fun ha => { h.canonical ha with } }
  | pal k _ hp =>
    have hh := (h.idleClear hp).2
    exact { h with
      fits := { h.fits with }
      outOutline := by simp [hh]
      canonical := fun ha => { h.canonical ha with outIsImage := by simp [hh] } }
  | ctrl _ hp =>
    exact { h with
      fits := { h.fits with }
      canonical := fun _ => { h.canonical_of_noHeader (h.idleClear hp).2 with } }
  | busy => exact h.raised (c := .configWriteWhileBusy) nofun _

/-! ### Launch and reset -/

/-- The launch, with any OUT and any replies before it. -/
theorem launch_inv (p : LenBits) (src : List Byte) (script : List Input) (out : List Record) (values : List Word) :
    ({ State.launch p src script with out := out, replies := values } : State).Inv where
  fits := by constructor <;> simp
  curInSource := by simp
  lineLenRange := by simp
  stripRange := by simp
  linesRange := by simp
  beforeHeader := by simp
  noFault := by simp
  faultRecorded := by simp
  curIsStrips := by simp
  chunkWhenStrip := by simp
  chunkIsStrip := by simp
  sliceNeedsStrip := by simp
  idleClear := by simp
  started := by simp
  doneComplete := by simp
  outOutline := by simp
  canonical := fun _ => by constructor <;> simp

/-! ### The operations -/

theorem State.Inv.begun {s : State} (h : s.Inv) (hp : s.phase = .idle) (h0 : s.len.toNat ≠ 0)
    (hm : s.len.toNat % 256 = 0) : (beginConversion s).Inv := by
  obtain ⟨hstrip, _, _⟩ := h.beforeHeader (h.idleClear hp).2
  have hcur : s.cur.toNat = 0 := by simpa [hstrip] using h.curIsStrips (by simp [hp])
  have herr := h.noFault (by simp [hp])
  have hlen := h.fits.len
  have hbits := s.lenBits.two_pow_bits
  have hword := s.len.isLt
  have hn : (beginConversion s).nstrips.toNat = s.len.toNat / 256 := by
    rw [beginConversion_nstrips, truncTo_toNat, BitVec.toNat_ofNat, Nat.mod_eq_of_lt (by omega),
      Nat.mod_eq_of_lt (by omega)]
  exact {
    fits := { h.fits with
      nstrips := by rw [hn]; simp; omega
      strip := by simp
      lines := by simp }
    curInSource := h.curInSource
    lineLenRange := by simp
    stripRange := by simp
    linesRange := by simp
    beforeHeader := by simp
    noFault := fun _ => herr
    faultRecorded := by simp
    curIsStrips := by simp [hcur]
    chunkWhenStrip := by simp
    chunkIsStrip := by simp
    sliceNeedsStrip := by simp
    idleClear := by simp
    started := fun _ => ⟨by omega, by simp only [beginConversion_len]; omega⟩
    doneComplete := by simp
    outOutline := by simp
    canonical := fun _ => by constructor <;> simp }

theorem State.Inv.headerEmitted {s : State} (h : s.Inv) (hp : s.phase = .run) (hh : s.hdrSent = false) :
    ({ emit (.header (imageHeader s)) s with hdrSent := true } : State).Inv := by
  obtain ⟨_, hlines, _⟩ := h.beforeHeader hh
  have hrec : imageRecords { emit (.header (imageHeader s)) s with hdrSent := true } = [.header (imageHeader s)] := by
    simp [imageRecords, imageHeader, hlines]
  exact { h with
    fits := { h.fits with }
    beforeHeader := nofun
    idleClear := by simp [hp]
    doneComplete := by simp [hp]
    outOutline := fun _ => by rw [hrec]; simp
    canonical := fun ha => { h.canonical ha with outIsImage := fun _ => by rw [hrec]; exact List.suffix_append _ _ } }

/-- READ_STRIP moves to the next strip, and CHUNK holds it. -/
theorem State.Inv.stripRead {s : State} (h : s.Inv) (hp : s.phase = .run) (hh : s.hdrSent = true)
    (hs : s.strip.toNat < s.nstrips.toNat) (hl : s.lines.toNat = 8 * s.strip.toNat) (hn : s.lineLen = 0)
    (hv : s.sliceValid = false) {bytes : List Byte} {cur : Word}
    (ht : srcTake s.lenBits s.src 256 s.cur = .full bytes cur) :
    ({ s with
      cur := cur
      chunk := chunkOf bytes
      chunkValid := true
      strip := truncTo s.lenBits.stripBits (s.strip + 1) } : State).Inv := by
  have hlt := h.nextStrip_lt hp hs
  have hcur := h.curIsStrips (by simp [hp])
  have hfull : s.cur.toNat + 256 ≤ s.src.length := by
    by_contra hshort
    rw [srcTake_short h.curInSource (by omega) (by omega)] at ht
    contradiction
  rw [srcTake_full hfull hlt, Taken.full.injEq] at ht
  obtain ⟨rfl, rfl⟩ := ht
  have hword := s.lenBits.two_pow_le
  have hnfit := h.fits.nstrips
  have hnext := word_succ (v := s.strip) (by omega)
  have hcur' : (BitVec.ofNat 32 (s.cur.toNat + 256)).toNat = s.cur.toNat + 256 := by
    rw [BitVec.toNat_ofNat, Nat.mod_eq_of_lt (by omega)]
  rw [truncTo_eq_self (by omega)]
  exact { h with
    fits := { h.fits with strip := by simp only [hnext]; omega, cur := by simpa only [hcur'] using hlt }
    curInSource := by simpa only [hcur'] using hfull
    stripRange := by simp only [hnext]; omega
    linesRange := by simp only [hnext]; omega
    beforeHeader := by simp [hh]
    curIsStrips := fun _ => by simp only [hcur', hnext]; omega
    chunkWhenStrip := fun _ => iff_of_true rfl (by rw [hnext]; omega)
    chunkIsStrip := fun _ => ⟨by rw [hnext]; omega, fun i => by
      simp only [hnext, Nat.add_sub_cancel, ← hcur]
      exact chunkOf_getElem hfull i⟩
    sliceNeedsStrip := by simp [hv]
    doneComplete := by simp [hp]
    canonical := fun ha => { h.canonical ha with stripClosed := fun _ => ⟨hn, hv⟩ } }

/-- With an end of the Source before the strip's, READ_STRIP's fault leaves CUR at that end. -/
theorem State.Inv.stripTruncated {s : State} (h : s.Inv) (hp : s.phase = .run)
    (hs : s.strip.toNat < s.nstrips.toNat) {cur : Word} (ht : srcTake s.lenBits s.src 256 s.cur = .short cur) :
    (raiseFault .streamTruncation (encode .readStrip) { s with cur := cur, chunkValid := false }).Inv := by
  have hlt := h.nextStrip_lt hp hs
  have hend := srcTake_short_length ht
  have hfew := srcTake_short_lt ht
  exact h.faulted (c := .streamTruncation) nofun _ (by omega) (by omega) nofun

theorem loAddr_toNat (cx : BitVec 4) (py : BitVec 3) : (loAddr cx py).toNat = 16 * cx.toNat + py.toNat := by
  revert cx py
  decide

theorem hiAddr_toNat (cx : BitVec 4) (py : BitVec 3) : (hiAddr cx py).toNat = 16 * cx.toNat + 8 + py.toNat := by
  revert cx py
  decide

theorem State.ChunkIsStrip.getD {s : State} (hc : s.ChunkIsStrip) {k : Nat} {a : BitVec 8}
    (hk : k = 256 * (s.strip.toNat - 1) + a.toNat) : s.src.getD k 0 = chunkByte s a := by
  rw [hk, List.getD_eq_getElem?_getD, hc ⟨a.toNat, a.isLt⟩]
  rfl

/-- In a row of the strip in CHUNK, the two bytes the sequencer has DECODE_SLICE read give the image's pixels. -/
theorem State.ChunkIsStrip.decodeRow_eq {s : State} (hc : s.ChunkIsStrip) {n y : Nat} (hn : n % 8 = 0)
    (hlt : n < 128) (hy : y / 8 = s.strip.toNat - 1) (i : Fin 8) :
    (decodeRow (chunkByte s (loAddr (BitVec.ofNat 4 (n / 8)) (BitVec.ofNat 3 (y % 8))))
      (chunkByte s (hiAddr (BitVec.ofNat 4 (n / 8)) (BitVec.ofNat 3 (y % 8)))))[i.val] =
      imagePixel s.src (n + i.val) y := by
  have hcol : (n + i.val) / 8 = n / 8 := by omega
  have hlane : (n + i.val) % 8 = i.val := by omega
  have hcx : (BitVec.ofNat 4 (n / 8)).toNat = n / 8 := by rw [BitVec.toNat_ofNat, Nat.mod_eq_of_lt (by omega)]
  have hpy : (BitVec.ofNat 3 (y % 8)).toNat = y % 8 := by rw [BitVec.toNat_ofNat, Nat.mod_eq_of_lt (by omega)]
  rw [decodeRow_getElem _ _ _ i.isLt, imagePixel, hcol, hlane, hy, hc.getD (by rw [loAddr_toNat, hcx, hpy]; omega),
    hc.getD (by rw [hiAddr_toNat, hcx, hpy]; omega)]

theorem State.Inv.sliceDecoded {s : State} (h : s.Inv) (hp : s.phase = .run) (hc : s.chunkValid = true)
    {cx : BitVec 4} {py : BitVec 3} (ha : s.auto = true → .decodeSlice cx py = nextOp s) :
    ({ s with
      slice := decodeRow (chunkByte s (loAddr cx py)) (chunkByte s (hiAddr cx py))
      sliceValid := true } : State).Inv := by
  obtain ⟨hstrip, hchunk⟩ := h.chunkIsStrip hc
  have hlen := h.lineLenRange
  have hlines := h.linesRange
  refine { h with
    fits := { h.fits with }
    sliceNeedsStrip := fun _ => hstrip
    doneComplete := by simp [hp]
    canonical := fun hauto => ?_ }
  have hcan := h.canonical hauto
  obtain ⟨hlt, hopen, rfl, rfl⟩ := hcan.rowOpen h (ha hauto).symm
  exact { hcan with
    stripClosed := fun he => absurd he (by simp only; omega)
    sliceFits := fun _ => by simp only; omega
    sliceIsImage := fun _ i => hchunk.decodeRow_eq hlen.1 hlt (by omega) i }

theorem State.Inv.sliceAppended {s : State} (h : s.Inv) (hp : s.phase = .run) (hv : s.sliceValid = true)
    (hl : s.lineLen.toNat ≤ 120) :
    ({ s with
      line := writeSlice s.line s.lineLen.toNat s.slice
      lineLen := s.lineLen + 8
      sliceValid := false } : State).Inv := by
  have hlen : (s.lineLen + 8).toNat = s.lineLen.toNat + 8 :=
    BitVec.toNat_add_of_lt (show s.lineLen.toNat + 8 < 2 ^ 8 by omega)
  have hrange := h.lineLenRange
  refine { h with
    fits := { h.fits with }
    lineLenRange := by simp only [hlen]; omega
    beforeHeader := by simp [h.headerFirst (h.sliceNeedsStrip hv)]
    sliceNeedsStrip := nofun
    doneComplete := by simp [hp]
    canonical := fun ha => ?_ }
  have hcan := h.canonical ha
  refine { hcan with
    stripClosed := fun he => absurd (hcan.stripClosed he).2 (by simp [hv])
    sliceFits := nofun
    lineIsImage := fun j hj => ?_
    sliceIsImage := nofun }
  simp only [hlen] at hj
  rw [writeSlice_getElem]
  split
  · next hin => simpa [Nat.add_sub_cancel' hin.1] using hcan.sliceIsImage hv ⟨j.val - s.lineLen.toNat, by omega⟩
  · next hout => exact hcan.lineIsImage j (by omega)

/-- One more row is out: the records claimed of OUT grow by it. -/
theorem imageRecords_succ {s t : State} (hhdr : imageHeader t = imageHeader s) (hsrc : t.src = s.src)
    (hlines : t.lines.toNat = s.lines.toNat + 1) :
    imageRecords t = imageRecords s ++ [.scanline ⟨s.lines, imageRow s.src s.lines.toNat⟩] := by
  simp [imageRecords, hhdr, hsrc, hlines, List.range_succ]

theorem State.Inv.scanlineEmitted {s : State} (h : s.Inv) (hp : s.phase = .run) (hl : s.lineLen.toNat = 128)
    (hs : s.lines.toNat < 8 * s.strip.toNat) :
    ({ emit (.scanline ⟨s.lines, s.line⟩) s with
      lines := truncTo s.lenBits.lineBits (s.lines + 1)
      lineLen := 0 } : State).Inv := by
  have hfit := h.fits.strip
  have hbits := s.lenBits.two_pow_lineBits
  have hword := s.lenBits.two_pow_le
  have hbits' := s.lenBits.two_pow_bits
  have hh := h.headerFirst (by omega)
  have hrange := h.linesRange
  have hnext := word_succ (v := s.lines) (by omega)
  rw [truncTo_eq_self (by omega)]
  have hrec := imageRecords_succ (s := s)
    (t := { emit (.scanline ⟨s.lines, s.line⟩) s with lines := s.lines + 1, lineLen := 0 }) rfl rfl hnext
  refine { h with
    fits := { h.fits with lines := by simp only [hnext, emit_lenBits]; omega }
    lineLenRange := by simp
    linesRange := by simp only [hnext, emit_strip]; omega
    beforeHeader := by simp [hh]
    doneComplete := by simp [hp]
    outOutline := fun _ => ?_
    canonical := fun ha => ?_ }
  · rw [hrec]
    simpa [Record.outline] using List.suffix_append_self_iff.2 (h.outOutline hh)
  · have hcan := h.canonical ha
    have hv : s.sliceValid = false := by
      by_contra hv
      have := hcan.sliceFits (by simpa using hv)
      omega
    have hline : s.line = imageRow s.src s.lines.toNat := by
      ext1 j hj
      simpa [imageRow] using hcan.lineIsImage ⟨j, hj⟩ (by simpa [hl] using hj)
    exact { hcan with
      stripClosed := fun _ => ⟨rfl, hv⟩
      sliceFits := by simp [hv]
      lineIsImage := by simp
      sliceIsImage := by simp [hv]
      outIsImage := fun _ => by
        rw [hrec, ← hline]
        exact List.suffix_append_self_iff.2 (hcan.outIsImage hh) }

theorem State.Inv.finished {s : State} (h : s.Inv) (hp : s.phase = .run) (hh : s.hdrSent = true)
    (hs : s.strip = s.nstrips) (hl : s.lines.toNat = 8 * s.nstrips.toNat) (hn : s.lineLen = 0)
    (hv : s.sliceValid = false) : ({ s with phase := .done } : State).Inv :=
  { h with
    fits := { h.fits with }
    noFault := fun _ => h.noFault (by simp [hp])
    faultRecorded := nofun
    curIsStrips := fun _ => h.curIsStrips (by simp [hp])
    chunkWhenStrip := fun _ => h.chunkWhenStrip (by simp [hp])
    idleClear := nofun
    started := fun _ => h.started (.inl hp)
    doneComplete := fun _ => ⟨hh, hs, hl, hn, hv⟩
    canonical := fun ha => { h.canonical ha with } }

/-! ### Every step, every run -/

/-- An operation keeps the invariant; in an automatic run only the sequencer's operation is asked to. -/
theorem State.Inv.executed {i : Instr} {s t : State} (h : s.Inv) (ha : s.phase = .run → s.auto = true → i = nextOp s)
    (hx : exec i s = .next t) : t.Inv := by
  rcases exec_cases hx with ⟨_, rfl⟩ | ⟨_, _, rfl⟩ | ⟨hp, he⟩
  · exact h
  · exact h.raised (c := .sequenceError) nofun _
  cases he with
  | start h0 hm => exact h.begun hp h0 hm
  | badLength => exact h.raised (c := .invalidInputSize) nofun _
  | emitHeader hh => exact h.headerEmitted hp hh
  | readStrip hh hs hl hn hv ht => exact h.stripRead hp hh hs hl hn hv ht
  | truncated _ hs _ _ _ ht => exact h.stripTruncated hp hs ht
  | decodeSlice hc => exact h.sliceDecoded hp hc (ha hp)
  | appendSlice hv hl => exact h.sliceAppended hp hv hl
  | emitScanline hl hs => exact h.scanlineEmitted hp hl hs
  | finish hh hs hl hn hv => exact h.finished hp hh hs hl hn hv

/-- In an automatic run the operation issued is the sequencer's. -/
theorem State.Issues.eq_nextOp {s : State} {i : Instr} (h : s.Issues i) (hp : s.phase = .run) (ha : s.auto = true) :
    i = nextOp s := by
  rcases h with ⟨hn, _⟩ | ⟨_, _, _, hi⟩
  · exact absurd ⟨hp, ha⟩ hn
  · exact hi

theorem State.Inv.stepped {s t : State} (h : s.Inv) (hs : step s = .next t) : t.Inv := by
  cases step_effect hs with
  | waits => exact h.tick
  | reads values => exact h.withScript _ values
  | configures hc => exact h.tick.configured hc
  | refuses hc w => exact h.tick.raised hc w
  | operates hi hx => exact h.tick.executed hi.eq_nextOp hx
  | resets => exact launch_inv _ _ _ _ _

theorem State.Inv.ran {n : Nat} {s t : State} (h : s.Inv) (hr : core.run n s = .next t) : t.Inv := by
  induction n generalizing s with
  | zero =>
    cases hr
    exact h
  | succ n ih =>
    simp only [Host.Core.run] at hr
    split at hr
    · next u hu => exact ih (h.stepped hu) hr
    · contradiction
    · contradiction

/-- Settles O28: one lemma per way a step can go, assembled in `State.Inv.stepped`. -/
theorem everyStepKeepsTheInvariant : Obligations.EveryStepKeepsTheInvariant := by
  unfold Obligations.EveryStepKeepsTheInvariant
  intro s s' h hs
  exact h.stepped hs

/-- Settles O27: at launch every counter is 0 and nothing is claimed of the buffers. -/
theorem invariantHoldsAtLaunch : Obligations.InvariantHoldsAtLaunch := by
  unfold Obligations.InvariantHoldsAtLaunch
  intro p src inputs
  exact launch_inv p src inputs [] []

/-- Settles O29: the bounds are the RUN part of the invariant, which every state of a run meets. -/
theorem runStatesMeetTheCounterBounds : Obligations.RunStatesMeetTheCounterBounds := by
  unfold Obligations.RunStatesMeetTheCounterBounds
  intro p src script n s hr hp
  have h : s.Inv := (invariantHoldsAtLaunch p src script).ran hr
  have hne : s.phase ≠ .error := by simp [hp]
  have hlines := h.linesRange
  refine ⟨h.stripRange, (h.started (.inl hp)).1, h.curIsStrips hne, h.chunkWhenStrip hne, fun _ => ⟨by omega, by omega⟩,
    fun _ => by omega, h.lineLenRange.1, h.lineLenRange.2, fun hh => ?_⟩
  obtain ⟨hs, hl, hn⟩ := h.beforeHeader hh
  simp [hs, hl, hn]

/-- Settles O26: the answer is the reset event's state. -/
theorem resetEventSetsTheResetValues : Obligations.ResetEventSetsTheResetValues := by
  unfold Obligations.ResetEventSetsTheResetValues
  intro s src rest hi
  refine ⟨resetEvent src { s with inputs := rest }, by rw [step, hi]; rfl, ?_⟩
  simp [Config.grayRamp]

end Sys2Proof.Machine
end

section
/-! PROOF. Decode and encode agree (30_encoding.md R66 to R71). The idea: `decode_eq_ok_iff` reads off from `decode`
when a word is an operation, field by field, and a word is put together again from its fields. -/

namespace Sys2Proof

/-! ### The fields of a word (R66) -/

/-- One bit as a field of width 1. -/
theorem getLsbD_eq_false_iff {n k : Nat} {w : BitVec n} : w.getLsbD k = false ↔ w.extractLsb' k 1 = 0#1 := by
  rw [BitVec.getLsbD_eq_extractLsb']
  generalize w.extractLsb' k 1 = b
  revert b
  decide

theorem reservedZeroN_iff {w : OpWord} : reservedZeroN w = true ↔ w.extractLsb' 0 12 = 0#12 := by simp [reservedZeroN]

theorem reservedZeroD_iff {w : OpWord} :
    reservedZeroD w = true ↔ w.getLsbD 7 = false ∧ w.extractLsb' 0 4 = 0#4 := by simp [reservedZeroD]

/-- A word of format N is its opcode and its reserved bits. -/
theorem eq_opField_append (w : OpWord) : w = opField w ++ w.extractLsb' 0 12 := by
  rw [opField, BitVec.extractLsb'_append_extractLsb'_eq_extractLsb' (by rfl), BitVec.extractLsb'_eq_self]

/-- A word of format D is its opcode, its two operands and its reserved bits. -/
theorem eq_formatD_fields (w : OpWord) :
    w = opField w ++ cxField w ++ w.extractLsb' 7 1 ++ pyField w ++ w.extractLsb' 0 4 := by
  rw [opField, cxField, pyField, BitVec.extractLsb'_append_extractLsb'_eq_extractLsb' (by rfl),
    BitVec.extractLsb'_append_extractLsb'_eq_extractLsb' (by rfl),
    BitVec.extractLsb'_append_extractLsb'_eq_extractLsb' (by rfl),
    BitVec.extractLsb'_append_extractLsb'_eq_extractLsb' (by rfl), BitVec.extractLsb'_eq_self]

section
variable (cx : BitVec 4) (py : BitVec 3)

/-- The upper half of a DECODE_SLICE word is its opcode and `cx`. -/
theorem extractLsb'_encode_decodeSlice_of_le {start len : Nat} (h : 8 ≤ start) :
    (encode (.decodeSlice cx py)).extractLsb' start len = (0x4#4 ++ cx).extractLsb' (start - 8) len := by
  rw [encode, BitVec.extractLsb'_append_eq_of_le (w := 4) (by omega),
    BitVec.extractLsb'_append_eq_of_le (w := 3) (by omega), BitVec.extractLsb'_append_eq_of_le (w := 1) (by omega)]
  simp only [Nat.sub_sub, Nat.reduceAdd]

@[simp] theorem opField_encode_decodeSlice : opField (encode (.decodeSlice cx py)) = 0x4#4 := by
  rw [opField, extractLsb'_encode_decodeSlice_of_le cx py (by decide)]
  exact BitVec.extractLsb'_append_eq_left

@[simp] theorem cxField_encode_decodeSlice : cxField (encode (.decodeSlice cx py)) = cx := by
  rw [cxField, extractLsb'_encode_decodeSlice_of_le cx py (by decide)]
  exact BitVec.extractLsb'_append_eq_right

@[simp] theorem pyField_encode_decodeSlice : pyField (encode (.decodeSlice cx py)) = py := by
  rw [encode, pyField, BitVec.extractLsb'_append_eq_of_le (w := 4) (by decide)]
  exact BitVec.extractLsb'_append_eq_right

@[simp] theorem reservedZeroD_encode_decodeSlice : reservedZeroD (encode (.decodeSlice cx py)) = true := by
  refine reservedZeroD_iff.2 ⟨?_, BitVec.extractLsb'_append_eq_right⟩
  rw [getLsbD_eq_false_iff, encode, BitVec.extractLsb'_append_eq_of_le (w := 4) (by decide),
    BitVec.extractLsb'_append_eq_of_le (w := 3) (by decide)]
  exact BitVec.extractLsb'_append_eq_right

end

/-! ### When a word is an operation -/

/-- The operations of format N by their word: an assigned opcode with `w[11:0] = 0` (R67). -/
theorem encode_of_formatN? {op : BitVec 4} {i : Instr} (h : formatN? op = some i) : encode i = op ++ 0#12 := by
  have all : ∀ op : BitVec 4, ∀ i ∈ formatN? op, encode i = op ++ 0#12 := by decide
  exact all op i h

theorem formatN?_isSome_iff {op : BitVec 4} :
    (formatN? op).isSome = true ↔ op.toNat ∈ [0x1, 0x2, 0x3, 0x5, 0x6, 0x7] := by
  revert op
  decide

theorem decode_eq_ok_iff {w : OpWord} {i : Instr} :
    decode w = .ok i ↔
      (opField w = 0x4#4 ∧ reservedZeroD w = true ∧ i = .decodeSlice (cxField w) (pyField w)) ∨
      (formatN? (opField w) = some i ∧ reservedZeroN w = true) := by
  unfold decode
  by_cases h4 : opField w = 0x4#4
  · have hN : formatN? 0x4#4 = none := rfl
    rw [if_pos h4, h4, hN]
    by_cases hr : reservedZeroD w = true <;> simp [hr, eq_comm (a := i)]
  · cases formatN? (opField w) with
    | none => simp [h4]
    | some j => by_cases hr : reservedZeroN w = true <;> simp [h4, hr]

/-! ### Both directions (R70) -/

theorem eq_encode_of_decode {w : OpWord} {i : Instr} (h : decode w = .ok i) : w = encode i := by
  rcases decode_eq_ok_iff.1 h with ⟨hop, hr, rfl⟩ | ⟨hi, hr⟩
  · obtain ⟨h7, hlow⟩ := reservedZeroD_iff.1 hr
    calc
      w = _ := eq_formatD_fields w
      _ = encode (.decodeSlice (cxField w) (pyField w)) := by rw [hop, getLsbD_eq_false_iff.1 h7, hlow, encode]
  · rw [encode_of_formatN? hi, ← reservedZeroN_iff.1 hr]
    exact eq_opField_append w

@[simp] theorem decode_encode (i : Instr) : decode (encode i) = .ok i := by
  cases i with
  | decodeSlice cx py => exact decode_eq_ok_iff.2 (.inl (by simp))
  | start | emitHeader | readStrip | appendSlice | emitScanline | finish => rfl

/-- Settles O1: a legal word is put together again from its fields, and the fields of an op word are the operation's. -/
theorem decodeReadsExactlyTheEncodedWord : Obligations.DecodeReadsExactlyTheEncodedWord := by
  unfold Obligations.DecodeReadsExactlyTheEncodedWord
  exact fun w i => ⟨eq_encode_of_decode, fun h => h ▸ decode_encode i⟩

/-- Settles O2: the two formats of `decode_eq_ok_iff`, with the operation left open. -/
theorem legalWordsAreThoseWithZeroReservedBits : Obligations.LegalWordsAreThoseWithZeroReservedBits := by
  unfold Obligations.LegalWordsAreThoseWithZeroReservedBits
  intro w
  simp only [decode_eq_ok_iff, exists_or, exists_and_left, exists_and_right, exists_eq, and_true,
    ← Option.isSome_iff_exists, formatN?_isSome_iff, reservedZeroN_iff, reservedZeroD_iff, opField]

/-! ### The 134 words (R70) -/

theorem mem_allInstrs (i : Instr) : i ∈ allInstrs := by
  cases i with
  | decodeSlice cx py =>
    simp only [allInstrs, List.mem_append, List.mem_flatMap, List.mem_map, List.mem_range]
    exact .inr ⟨cx.toNat, cx.isLt, py.toNat, py.isLt, by simp⟩
  | start | emitHeader | readStrip | appendSlice | emitScanline | finish => simp [allInstrs]

theorem encode_injective : Function.Injective encode := fun i j h =>
  Except.ok.inj (by rw [← decode_encode i, h, decode_encode])

/-- Different operands in the ranges of R68 give different operations, and none of them is of format N. -/
theorem allInstrs_nodup : allInstrs.Nodup := by
  have formatD : ((List.range 16 ×ˢ List.range 8).map fun p : Nat × Nat =>
      Instr.decodeSlice (BitVec.ofNat 4 p.1) (BitVec.ofNat 3 p.2)).Nodup := by
    refine (List.nodup_range.product List.nodup_range).map_on fun ⟨a, b⟩ hp ⟨c, d⟩ hq h => ?_
    simp only [List.mem_product, List.mem_range] at hp hq
    simp only [Instr.decodeSlice.injEq, ← BitVec.toNat_inj, BitVec.toNat_ofNat] at h
    ext <;> omega
  exact List.Nodup.append (by decide) formatD (by simp [List.disjoint_left])

/-- Settles O3: `encode` is injective, `allInstrs` lists every operation once, and the legal words are the encodings. -/
theorem exactlyOneHundredThirtyFourLegalWords : Obligations.ExactlyOneHundredThirtyFourLegalWords := by
  unfold Obligations.ExactlyOneHundredThirtyFourLegalWords
  refine ⟨allInstrs_nodup.map encode_injective, rfl, fun w => ?_⟩
  simp only [decodeReadsExactlyTheEncodedWord w, List.mem_map, mem_allInstrs, true_and, eq_comm]

/-- Settles O4: each legal word is its operation's op word; the other four are read by evaluating `decode`. -/
theorem sampleWordsDecode : Obligations.SampleWordsDecode := by
  unfold Obligations.SampleWordsDecode
  refine ⟨decode_encode .start, decode_encode .emitHeader, decode_encode .readStrip, decode_encode (.decodeSlice 15 7),
    decode_encode (.decodeSlice 3 5), decode_encode .appendSlice, decode_encode .emitScanline, decode_encode .finish, ?_⟩
  decide

end Sys2Proof
end

section
/-! PROOF. The tile-strip reader (41_tile_strip_reader.md): an operation out of sequence, READ_STRIP's two ways to end
(R88, R89), that no state of the invariant stops the machine (log entry 6), and how CUR moves (R85). -/

namespace Sys2Proof.Machine

/-! ### An operation out of sequence raises SEQUENCE_ERROR (60_exceptions.md R138) -/

theorem throughGate_refuses {i : Instr} {s : State} {body : Result} (he : s.phase ≠ .error)
    (h : s.phase ≠ gatePhase i ∨ body = .next (raiseFault .sequenceError (encode i) s)) :
    throughGate i s body = .next (raiseFault .sequenceError (encode i) s) := by
  by_cases hg : s.phase = gatePhase i
  · rw [throughGate_right hg, h.resolve_left (not_not_intro hg)]
  · exact throughGate_wrong he hg

theorem requiring_refuses {ok : Bool} {i : Instr} {s : State} {body : Result}
    (h : ok = false ∨ body = .next (raiseFault .sequenceError (encode i) s)) :
    requiring ok i s body = .next (raiseFault .sequenceError (encode i) s) := by
  cases ok with
  | false => rfl
  | true => exact h.resolve_left nofun

theorem nothingPending_eq_false {s : State} (h : s.lineLen ≠ 0 ∨ s.sliceValid = true) : nothingPending s = false := by
  rw [← Bool.not_eq_true, nothingPending_iff, not_and_or, Bool.not_eq_false]
  exact h

/-- The converse of the second way of `exec_cases`: the first check that fails ends the operation. -/
theorem exec_of_outOfSequence {i : Instr} {s : State} (he : s.phase ≠ .error) (h : OutOfSequence i s) :
    exec i s = .next (raiseFault .sequenceError (encode i) s) := by
  cases i with
  | start => exact throughGate_refuses he (.inl h)
  | emitHeader =>
    exact throughGate_refuses he <| h.imp_right fun h => requiring_refuses <| .inl (by simpa using h)
  | readStrip =>
    exact throughGate_refuses he <| h.imp_right fun h => requiring_refuses <| h.imp_right fun h => requiring_refuses <|
      h.imp (by simp) fun h => requiring_refuses <| h.imp (by simp [stripDone]) fun h => requiring_refuses <|
      .inl (nothingPending_eq_false h)
  | decodeSlice cx py =>
    exact throughGate_refuses he <| h.imp_right fun h => requiring_refuses <| h.imp_right fun h => requiring_refuses <|
      .inl (by simpa using h)
  | appendSlice =>
    exact throughGate_refuses he <| h.imp_right fun h => requiring_refuses <| h.imp_right fun h => requiring_refuses <|
      .inl (by simpa using h)
  | emitScanline =>
    exact throughGate_refuses he <| h.imp_right fun h => requiring_refuses <| h.imp (by simp) fun h =>
      requiring_refuses <| .inl (by simpa using h)
  | finish =>
    exact throughGate_refuses he <| h.imp_right fun h => requiring_refuses <| h.imp_right fun h => requiring_refuses <|
      h.imp (by simp) fun h => requiring_refuses <| h.imp (by simp) fun h => requiring_refuses <|
      .inl (nothingPending_eq_false h)

/-- Settles O10: the five alternatives are READ_STRIP's clauses of `OutOfSequence`. -/
theorem readStripRefusedOutOfSequence : Obligations.ReadStripRefusedOutOfSequence := by
  unfold Obligations.ReadStripRefusedOutOfSequence
  intro s hp h
  exact exec_of_outOfSequence (by simp [hp]) (.inr h)

/-! ### READ_STRIP in sequence (R88, R89) -/

/-- STRIP does not wrap where another strip is to be read. -/
theorem State.Inv.strip_succ {s : State} (h : s.Inv) (hs : s.strip.toNat < s.nstrips.toNat) :
    truncTo s.lenBits.stripBits (s.strip + 1) = s.strip + 1 ∧ (s.strip + 1).toNat = s.strip.toNat + 1 := by
  have hfit := h.fits.nstrips
  have hnext := word_succ (v := s.strip) (by omega)
  exact ⟨truncTo_eq_self (by omega), hnext⟩

/-- With a whole strip left, the 256 reads take it, and CUR does not wrap. -/
theorem State.Inv.srcTake_strip {s : State} (h : s.Inv) (hp : s.phase = .run) (hs : s.strip.toNat < s.nstrips.toNat)
    (hl : s.cur.toNat + 256 ≤ s.src.length) :
    srcTake s.lenBits s.src 256 s.cur = .full ((s.src.drop s.cur.toNat).take 256) (s.cur + 256) := by
  rw [srcTake_full hl (h.nextStrip_lt hp hs), BitVec.ofNat_add, BitVec.ofNat_toNat, BitVec.setWidth_eq]
  rfl

/-- With less than a strip left, the reads take what there is. -/
theorem State.Inv.srcTake_tail {s : State} (h : s.Inv) (hp : s.phase = .run) (hs : s.strip.toNat < s.nstrips.toNat)
    (hl : s.src.length < s.cur.toNat + 256) :
    srcTake s.lenBits s.src 256 s.cur = .short (BitVec.ofNat 32 s.src.length) :=
  srcTake_short h.curInSource hl (by have := h.nextStrip_lt hp hs; omega)

/-- Settles O8: the 256 reads take the next strip, and no counter wraps. -/
theorem readStripFillsTheChunk : Obligations.ReadStripFillsTheChunk := by
  unfold Obligations.ReadStripFillsTheChunk
  intro s h hp hh hs hl hn hv hfull
  refine ⟨chunkOf ((s.src.drop s.cur.toNat).take 256), chunkOf_getElem hfull, ?_⟩
  rw [exec_of_ownEffect hp (.readStrip hh hs hl hn hv (h.srcTake_strip hp hs hfull)), (h.strip_succ hs).1]

/-- Settles O9: the reads take the tail of the Source, and the fault keeps it consumed. -/
theorem readStripTruncationConsumesTheTail : Obligations.ReadStripTruncationConsumesTheTail := by
  unfold Obligations.ReadStripTruncationConsumesTheTail
  intro s h hp hh hs hl hn hv hshort
  exact exec_of_ownEffect hp (.truncated hh hs hl hn hv (h.srcTake_tail hp hs hshort))

/-! ### No state of the invariant stops the machine -/

theorem throughGate_answers {i : Instr} {s : State} {body : Result} (h : ∃ t, body = .next t) :
    ∃ t, throughGate i s body = .next t := by
  unfold throughGate
  split
  · exact ⟨_, rfl⟩
  split
  · exact h
  · exact ⟨_, rfl⟩

theorem requiring_answers {ok : Bool} {i : Instr} {s : State} {body : Result} (h : ∃ t, body = .next t) :
    ∃ t, requiring ok i s body = .next t := by
  cases ok with
  | false => exact ⟨_, rfl⟩
  | true => exact h

theorem fillChunk_answers {s : State} (hc : s.cur.toNat ≤ s.src.length) : ∃ t, fillChunk s = .next t := by
  unfold fillChunk
  split
  · exact ⟨_, rfl⟩
  · exact ⟨_, rfl⟩
  · next ht => exact absurd ht (srcTake_ne_pastEnd hc)

/-- SrcRead is the only place where the model can stop, and there it has an answer. -/
theorem exec_answers (i : Instr) {s : State} (hc : s.cur.toNat ≤ s.src.length) : ∃ t, exec i s = .next t := by
  cases i with
  | start =>
    refine throughGate_answers ?_
    split <;> exact ⟨_, rfl⟩
  | emitHeader => exact throughGate_answers <| requiring_answers ⟨_, rfl⟩
  | decodeSlice | appendSlice | emitScanline =>
    exact throughGate_answers <| requiring_answers <| requiring_answers ⟨_, rfl⟩
  | readStrip =>
    exact throughGate_answers <| requiring_answers <| requiring_answers <| requiring_answers <| requiring_answers <|
      fillChunk_answers hc
  | finish =>
    exact throughGate_answers <| requiring_answers <| requiring_answers <| requiring_answers <|
      requiring_answers ⟨_, rfl⟩

theorem configWrite_answers (off : Nat) (s u : State) : ∃ t, configWrite off s u = .next t := by
  unfold configWrite
  split <;> exact ⟨_, rfl⟩

theorem cmdWrite_answers (w : OpWord) {s : State} (hc : s.cur.toNat ≤ s.src.length) : ∃ t, cmdWrite w s = .next t := by
  unfold cmdWrite
  split
  · exact ⟨_, rfl⟩
  split
  · exact exec_answers _ hc
  · unfold illegalWord
    split <;> exact ⟨_, rfl⟩

theorem memWrite_answers (off : Nat) (v : Word) {s : State} (hc : s.cur.toNat ≤ s.src.length) :
    ∃ t, memWrite off v s = .next t := by
  unfold memWrite
  cases regAt off with
  | none => exact ⟨_, rfl⟩
  | some r =>
    cases r with
    | len | pal | ctrl => exact configWrite_answers _ _ _
    | cmd => exact cmdWrite_answers _ hc
    | status | errOp | nstrips | strip | lines | lineLen | cur => exact ⟨_, rfl⟩

theorem coreTurn_answers {s : State} (hc : s.cur.toNat ≤ s.src.length) : ∃ t, coreTurn s = .next t := by
  unfold coreTurn
  split
  · exact exec_answers _ hc
  · exact ⟨_, rfl⟩

theorem takeInput_answers (e : Input) {s : State} (hc : s.cur.toNat ≤ s.src.length) :
    ∃ t, takeInput e s = .next t := by
  cases e with
  | read | reset => exact ⟨_, rfl⟩
  | write off v => exact memWrite_answers off v hc
  | coreTurn => exact coreTurn_answers hc

/-- Settles O30: CUR is never past the end of the Source, so SrcRead always has an answer. -/
theorem invariantStatesNeverStop : Obligations.InvariantStatesNeverStop := by
  unfold Obligations.InvariantStatesNeverStop
  intro s h
  unfold step
  split
  · exact coreTurn_answers h.curInSource
  · exact takeInput_answers _ h.curInSource

/-! ### CUR moves forward only (R85) -/

/-- From `s` to `t` the Source is the same, and CUR has moved on by at most a strip. -/
structure CursorAdvances (s t : State) : Prop where
  src : t.src = s.src
  le : s.cur.toNat ≤ t.cur.toNat
  le_add : t.cur.toNat ≤ s.cur.toNat + 256

theorem CursorAdvances.of_eq {s t : State} (hs : t.src = s.src) (hc : t.cur = s.cur) : CursorAdvances s t :=
  ⟨hs, by rw [hc], by rw [hc]; omega⟩

theorem ConfigEffect.cursorAdvances {off : Nat} {v : Word} {s t : State} (h : ConfigEffect off v s t) :
    CursorAdvances s t := by
  cases h <;> exact .of_eq rfl rfl

theorem State.Inv.cursorAdvances_of_exec {i : Instr} {s t : State} (h : s.Inv) (hx : exec i s = .next t) :
    CursorAdvances s t := by
  rcases exec_cases hx with ⟨_, rfl⟩ | ⟨_, _, rfl⟩ | ⟨hp, he⟩
  · exact .of_eq rfl rfl
  · exact .of_eq rfl rfl
  cases he with
  | readStrip _ hs _ _ _ ht =>
    have hlt := h.nextStrip_lt hp hs
    have hword := s.lenBits.two_pow_le
    rcases Nat.lt_or_ge s.src.length (s.cur.toNat + 256) with hshort | hfull
    · rw [h.srcTake_tail hp hs hshort] at ht
      contradiction
    rw [h.srcTake_strip hp hs hfull] at ht
    cases ht
    have hcur : (s.cur + 256).toNat = s.cur.toNat + 256 :=
      BitVec.toNat_add_of_lt (show s.cur.toNat + 256 < 2 ^ 32 by omega)
    exact ⟨rfl, by simp only [hcur]; omega, by simp only [hcur]; omega⟩
  | truncated _ _ _ _ _ ht =>
    have hend := srcTake_short_length ht
    have hfew := srcTake_short_lt ht
    have hcur := h.curInSource
    exact ⟨rfl, by simp only [raiseFault_cur]; omega, by simp only [raiseFault_cur]; omega⟩
  | start | badLength | emitHeader | decodeSlice | appendSlice | emitScanline | finish => exact .of_eq rfl rfl

/-- Settles O37: READ_STRIP alone moves CUR, to the end of its strip or of the Source. -/
theorem cursorNeverMovesBack : Obligations.CursorNeverMovesBack := by
  unfold Obligations.CursorNeverMovesBack
  intro s s' h hs hnr
  suffices hadv : CursorAdvances s.tick s' from ⟨hadv.src, hadv.le, hadv.le_add⟩
  cases step_effect hs with
  | waits | reads | refuses => exact .of_eq rfl rfl
  | configures hc => exact hc.cursorAdvances
  | operates _ hx => exact h.tick.cursorAdvances_of_exec hx
  | resets hi => exact absurd hi (hnr _ _)

end Sys2Proof.Machine
end

section
/-! PROOF. The automatic run (43_image_assembler.md R118, R119): each operation the sequencer issues has its own effect,
never a refusal, and `stepsLeft` falls by one at each until a READ_STRIP meets the end of the Source. So after
`1 + 265 q` steps from START, `q` whole strips of the Source are out as scanlines. -/

namespace Sys2Proof.Machine

/-! ### Counters and the header -/

/-- LINES does not wrap where another row is to come. -/
theorem State.Inv.lines_succ {s : State} (h : s.Inv) (hs : s.lines.toNat < 8 * s.strip.toNat) :
    (truncTo s.lenBits.lineBits (s.lines + 1)).toNat = s.lines.toNat + 1 := by
  have hfit := h.fits.strip
  have hbits := s.lenBits.two_pow_lineBits
  have hword := s.lenBits.two_pow_le
  have hbits' := s.lenBits.two_pow_bits
  have hnext := word_succ (v := s.lines) (by omega)
  rw [truncTo_eq_self (by omega), hnext]

theorem lineLen_add_eight {n : BitVec 8} (h : n.toNat ≤ 120) : (n + 8).toNat = n.toNat + 8 :=
  BitVec.toNat_add_of_lt (show n.toNat + 8 < 2 ^ 8 by omega)

/-- `8 × NSTRIPS` fits the height field, so the header carries it whole (43_image_assembler.md R112). -/
theorem State.Fits.imageHeader_eq {s : State} (h : s.Fits) :
    imageHeader s = ⟨128, BitVec.ofNat 32 (8 * s.nstrips.toNat), 2, s.pal⟩ := by
  have hfit := h.nstrips
  have hbits := s.lenBits.two_pow_lineBits
  have heq : 8 * s.nstrips = BitVec.ofNat 32 (8 * s.nstrips.toNat) := by
    rw [BitVec.ofNat_mul, BitVec.ofNat_toNat, BitVec.setWidth_eq]
    rfl
  have hle : (BitVec.ofNat 32 (8 * s.nstrips.toNat)).toNat ≤ 8 * s.nstrips.toNat := by
    rw [BitVec.toNat_ofNat]
    exact Nat.mod_le _ _
  rw [imageHeader, heq, truncTo_eq_self (by omega)]

/-! ### What the sequencer issues -/

/-- The sequencer never issues START. -/
theorem gatePhase_nextOp (s : State) : gatePhase (nextOp s) = .run := by
  unfold nextOp
  split
  · rfl
  split
  · rfl
  split
  · rfl
  split
  · split <;> rfl
  · rfl

/-- In an automatic run no precondition of the operation issued fails (43_image_assembler.md R119). -/
theorem State.Inv.nextOp_ownEffect {s : State} (h : s.Inv) (hp : s.phase = .run) (ha : s.auto = true) :
    ∃ t, OwnEffect (nextOp s) s t := by
  have hcan := h.canonical ha
  have hrange := h.stripRange
  have hlines := h.linesRange
  have hzero : s.lineLen = 0 ↔ s.lineLen.toNat = 0 := by simp [← BitVec.toNat_inj]
  unfold nextOp
  split
  · next hh => exact ⟨_, .emitHeader hh⟩
  next hh =>
  have hh : s.hdrSent = true := by simpa using hh
  split
  · next hl =>
    have hopen : s.lines.toNat ≠ 8 * s.strip.toNat := fun he => by simp [(hcan.stripClosed he).1] at hl
    exact ⟨_, .emitScanline hl (by omega)⟩
  split
  · next hv => exact ⟨_, .appendSlice hv (hcan.sliceFits hv)⟩
  next hv =>
  have hv : s.sliceValid = false := by simpa using hv
  split
  · next hclosed =>
    obtain ⟨hl, hn⟩ := hclosed
    split
    · next hs =>
      cases ht : srcTake s.lenBits s.src 256 s.cur with
      | full bytes cur => exact ⟨_, .readStrip hh hs hl (hzero.2 hn) hv ht⟩
      | short cur => exact ⟨_, .truncated hh hs hl (hzero.2 hn) hv ht⟩
      | pastEnd => exact absurd ht (srcTake_ne_pastEnd h.curInSource)
    · next hs =>
      have heq : s.strip = s.nstrips := BitVec.eq_of_toNat_eq (by omega)
      exact ⟨_, .finish hh heq (heq ▸ hl) (hzero.2 hn) hv⟩
  · next hopen =>
    have hstrip : 1 ≤ s.strip.toNat := by
      by_contra h0
      have hl : s.lines.toNat = 8 * s.strip.toNat := by omega
      exact hopen ⟨hl, hzero.1 (hcan.stripClosed hl).1⟩
    exact ⟨_, .decodeSlice ((h.chunkWhenStrip (by simp [hp])).2 hstrip) hv⟩

theorem stepsLeft_beforeHeader {s : State} (hp : s.phase = .run) (hh : s.hdrSent = false) :
    stepsLeft s = 2 + 265 * s.nstrips.toNat := by simp [stepsLeft, hp, hh]

theorem stepsLeft_afterHeader {s : State} (hp : s.phase = .run) (hh : s.hdrSent = true) :
    stepsLeft s = 1 + 265 * (s.nstrips.toNat - s.strip.toNat) +
      (33 * (8 * s.strip.toNat - s.lines.toNat) - (2 * (s.lineLen.toNat / 8) + s.sliceValid.toNat)) := by
  simp [stepsLeft, hp, hh]

/-- Between two strips the steps left are those of whole strips, and FINISH. -/
theorem stepsLeft_stripClosed {s : State} (hp : s.phase = .run) (hh : s.hdrSent = true)
    (hl : s.lines.toNat = 8 * s.strip.toNat) : stepsLeft s = 1 + 265 * (s.nstrips.toNat - s.strip.toNat) := by
  rw [stepsLeft_afterHeader hp hh, hl]
  omega

/-- Each operation the sequencer issues brings the run one step nearer to its end, unless READ_STRIP meets the end of
the Source. -/
theorem OwnEffect.stepsLeft_succ {i : Instr} {s t : State} (he : OwnEffect i s t) (h : s.Inv) (hp : s.phase = .run)
    (ha : s.auto = true) (hi : i = nextOp s) (hfull : i = .readStrip → s.cur.toNat + 256 ≤ s.src.length) :
    stepsLeft t + 1 = stepsLeft s := by
  have hcan := h.canonical ha
  have hlen := h.lineLenRange
  have hbefore := @stepsLeft_afterHeader s hp
  have hafter := @stepsLeft_afterHeader t
  cases he with
  | start | badLength => exact absurd (gatePhase_nextOp s) (hi ▸ nofun)
  | emitHeader hh =>
    obtain ⟨hstrip, hlines, hn⟩ := h.beforeHeader hh
    have hv := h.noSlice_of_noHeader hh
    rw [stepsLeft_beforeHeader hp hh, hafter hp rfl]
    simp [hstrip, hlines, hn, hv]
    omega
  | readStrip hh hs hl hn hv ht =>
    obtain ⟨htrunc, hnext⟩ := h.strip_succ hs
    have hn0 : s.lineLen.toNat = 0 := congrArg BitVec.toNat hn
    rw [stepsLeft_stripClosed hp hh hl, hafter hp hh]
    simp only [htrunc, hnext, hn0, hv, Bool.toNat_false]
    omega
  | truncated _ _ _ _ _ ht =>
    have := srcTake_short_lt ht
    have := hfull rfl
    omega
  | decodeSlice hc hv =>
    obtain ⟨hlt, hopen, _, _⟩ := hcan.rowOpen h hi.symm
    have hh := h.headerFirst (by omega)
    rw [hbefore hh, hafter hp hh]
    simp only [hv, Bool.toNat_true, Bool.toNat_false]
    omega
  | appendSlice hv hl =>
    have hopen : s.lines.toNat ≠ 8 * s.strip.toNat := fun he => by simp [(hcan.stripClosed he).2] at hv
    have hlines := h.linesRange
    have hh := h.headerFirst (h.sliceNeedsStrip hv)
    rw [hbefore hh, hafter hp hh]
    simp only [hv, lineLen_add_eight hl, Bool.toNat_true, Bool.toNat_false]
    omega
  | emitScanline hl hs =>
    have hh := h.headerFirst (by omega)
    have hv : s.sliceValid = false := by
      by_contra hv
      have := hcan.sliceFits (by simpa using hv)
      omega
    rw [hbefore hh, hafter hp hh]
    simp only [h.lines_succ hs, hl, hv, Bool.toNat_false, emit_nstrips, emit_strip, emit_sliceValid,
      show (0 : BitVec 8).toNat = 0 from rfl]
    omega
  | finish hh hs hl hn hv =>
    rw [stepsLeft_stripClosed hp hh (hs ▸ hl), hs]
    simp [stepsLeft]

/-! ### A run of the sequencer -/

/-- An automatic run under way, with no host access to come: what a Source, a palette and `r` strips fix in it. OUT
holds the records of this run alone (log entry 18). -/
structure AutomaticRun (src : List Byte) (palette : Palette) (r : Nat) (s : State) : Prop where
  inv : s.Inv
  phase : s.phase = .run
  auto : s.auto = true
  script : s.inputs = []
  src : s.src = src
  pal : s.pal = palette
  nstrips : s.nstrips.toNat = r
  outCount : s.out.length = s.hdrSent.toNat + s.lines.toNat

section
variable {src : List Byte} {palette : Palette} {r : Nat} {s : State}

theorem AutomaticRun.step_eq (h : AutomaticRun src palette r s) : step s = exec (nextOp s) s := by
  rw [step, h.script]
  exact if_pos (autoRun_iff.2 ⟨h.phase, h.auto⟩)

/-- The run goes on, past every operation but FINISH and a READ_STRIP that meets the end of the Source. -/
theorem AutomaticRun.of_ownEffect (h : AutomaticRun src palette r s) {i : Instr} {t : State} (he : OwnEffect i s t)
    (ht : t.Inv) (hi : i = nextOp s) (hmore : 1 < stepsLeft s)
    (hfull : i = .readStrip → s.cur.toNat + 256 ≤ s.src.length) : AutomaticRun src palette r t := by
  have hcount := h.outCount
  cases he with
  | start | badLength => exact absurd (gatePhase_nextOp s) (hi ▸ nofun)
  | emitHeader hh => exact { h with inv := ht, outCount := by simp [hcount, hh]; omega }
  | readStrip | decodeSlice | appendSlice => exact { h with inv := ht }
  | truncated _ _ _ _ _ hshort =>
    have := srcTake_short_lt hshort
    have := hfull rfl
    omega
  | emitScanline hl hs =>
    refine { h with inv := ht, outCount := ?_ }
    simp only [h.inv.lines_succ hs, emit_out, emit_hdrSent, List.length_append, List.length_singleton, hcount]
    omega
  | finish hh hs hl =>
    rw [stepsLeft_stripClosed h.phase hh (hs ▸ hl), hs] at hmore
    omega

theorem OwnEffect.readStrip_ready {t : State} (he : OwnEffect .readStrip s t) :
    s.hdrSent = true ∧ s.strip.toNat < s.nstrips.toNat ∧ s.lines.toNat = 8 * s.strip.toNat := by
  cases he with
  | readStrip hh hs hl => exact ⟨hh, hs, hl⟩
  | truncated hh hs hl => exact ⟨hh, hs, hl⟩

/-- Until `q` strips are out, of which the Source holds every byte, each step is the sequencer's and brings the run one
step nearer to its end. -/
theorem AutomaticRun.step_succ (h : AutomaticRun src palette r s) {q : Nat} (hsrc : 256 * q ≤ src.length)
    (hmore : 1 + 265 * (r - q) < stepsLeft s) :
    ∃ t, step s = .next t ∧ AutomaticRun src palette r t ∧ stepsLeft t + 1 = stepsLeft s := by
  obtain ⟨t, he⟩ := h.inv.nextOp_ownEffect h.phase h.auto
  have hfull : nextOp s = .readStrip → s.cur.toNat + 256 ≤ s.src.length := by
    intro hi
    obtain ⟨hh, hs, hl⟩ := (hi ▸ he : OwnEffect .readStrip s t).readStrip_ready
    have hcur := h.inv.curIsStrips (by simp [h.phase])
    rw [stepsLeft_stripClosed h.phase hh hl, h.nstrips] at hmore
    rw [h.src]
    omega
  have hstep : step s = .next t := by
    rw [h.step_eq, exec_of_ownEffect (h.phase.trans (gatePhase_nextOp s).symm) he]
  exact ⟨t, hstep, h.of_ownEffect he (h.inv.stepped hstep) rfl (by omega) hfull,
    he.stepsLeft_succ h.inv h.phase h.auto rfl hfull⟩

theorem AutomaticRun.run_to (h : AutomaticRun src palette r s) {q : Nat} (hsrc : 256 * q ≤ src.length) {n : Nat}
    (hn : stepsLeft s = n + (1 + 265 * (r - q))) :
    ∃ t, core.run n s = .next t ∧ AutomaticRun src palette r t ∧ stepsLeft t = 1 + 265 * (r - q) := by
  induction n generalizing s with
  | zero => exact ⟨s, rfl, h, by omega⟩
  | succ n ih =>
    obtain ⟨u, hu, hrun, hleft⟩ := h.step_succ hsrc (by omega)
    obtain ⟨t, ht⟩ := ih hrun (by omega)
    exact ⟨t, by rw [run_succ core hu]; exact ht.1, ht.2⟩

/-! ### Where a strip is complete -/

/-- `q` strips are out and the next operation is READ_STRIP or FINISH. -/
structure AfterStrips (q : Nat) (s : State) : Prop where
  hdrSent : s.hdrSent = true
  strip : s.strip.toNat = q
  lines : s.lines.toNat = 8 * q
  lineLen : s.lineLen = 0
  sliceValid : s.sliceValid = false

/-- The steps left tell where the run stands: within a strip they are not those of whole strips. -/
theorem AutomaticRun.afterStrips (h : AutomaticRun src palette r s) {q : Nat} (hq : q ≤ r)
    (hleft : stepsLeft s = 1 + 265 * (r - q)) : AfterStrips q s := by
  have hstrip := h.inv.stripRange
  have hlines := h.inv.linesRange
  have hlen := h.inv.lineLenRange
  have hcan := h.inv.canonical h.auto
  have hn := h.nstrips
  have hh : s.hdrSent = true := by
    by_contra hh
    rw [stepsLeft_beforeHeader h.phase (by simpa using hh)] at hleft
    omega
  have hclosed : s.lines.toNat = 8 * s.strip.toNat := by
    by_contra hopen
    rw [stepsLeft_afterHeader h.phase hh] at hleft
    cases hv : s.sliceValid with
    | false =>
      rw [hv, Bool.toNat_false] at hleft
      omega
    | true =>
      have hfits := hcan.sliceFits hv
      rw [hv, Bool.toNat_true] at hleft
      omega
  rw [stepsLeft_stripClosed h.phase hh hclosed] at hleft
  obtain ⟨hzero, hv⟩ := hcan.stripClosed hclosed
  exact ⟨hh, by omega, by omega, hzero, hv⟩

/-- From START on, `1 + 265 q` steps complete `q` strips, of which the Source holds every byte. -/
theorem AutomaticRun.run_to_afterStrips (h : AutomaticRun src palette r s) (hh : s.hdrSent = false) {q : Nat}
    (hq : q ≤ r) (hsrc : 256 * q ≤ src.length) :
    ∃ t, core.run (1 + 265 * q) s = .next t ∧ AutomaticRun src palette r t ∧ AfterStrips q t := by
  have hleft : stepsLeft s = 1 + 265 * q + (1 + 265 * (r - q)) := by
    rw [stepsLeft_beforeHeader h.phase hh, h.nstrips]
    omega
  obtain ⟨t, hrun, ht, hend⟩ := h.run_to hsrc hleft
  exact ⟨t, hrun, ht, ht.afterStrips hq hend⟩

/-- OUT is the header and the rows of the image up to LINES: it ends with them, and there are no more. -/
theorem AutomaticRun.out_eq (h : AutomaticRun src palette r s) (hh : s.hdrSent = true) :
    s.out = .header ⟨128, BitVec.ofNat 32 (8 * r), 2, palette⟩ ::
      (List.range s.lines.toNat).map fun y => .scanline ⟨BitVec.ofNat 32 y, imageRow src y⟩ := by
  have hcount : (imageRecords s).length = s.out.length := by
    rw [h.outCount, hh]
    simp [imageRecords, Nat.add_comm 1]
  have heq : imageRecords s = s.out := ((h.inv.canonical h.auto).outIsImage hh).eq_of_length hcount
  rw [← heq, imageRecords, h.inv.fits.imageHeader_eq, h.nstrips, h.pal, h.src]

end

/-! ### The boot order (70_reset_and_hazards.md R157) -/

/-- The palette after the host's four writes of PAL0 to PAL3. -/
def writePalette (old palette : Palette) : Palette :=
  (((old.set 0 ((palette[0].setWidth 32).setWidth 24)).set 1 ((palette[1].setWidth 32).setWidth 24)).set 2
    ((palette[2].setWidth 32).setWidth 24)).set 3 ((palette[3].setWidth 32).setWidth 24)

/-- Nothing is left of the old palette, and a 24-bit entry passes whole through a host register. -/
theorem writePalette_eq (old palette : Palette) : writePalette old palette = palette := by
  unfold writePalette
  ext1 i hi
  interval_cases i <;> simp [BitVec.setWidth_setWidth_of_le]

/-- What the host's accesses before START make of the launch. -/
def configured (p : LenBits) (src : List Byte) (size : Word) (palette : Palette) : State :=
  { State.launch p src [.write 0x06 0x1000] with len := truncTo p.bits size, pal := palette }

theorem run_boot_configured (p : LenBits) (src : List Byte) (size : Word) (palette : Palette) :
    core.run 6 (State.launch p src (bootScript size palette)) = .next (configured p src size palette) := by
  have hrun : core.run 6 (State.launch p src (bootScript size palette)) =
      .next (configured p src size (writePalette Config.grayRamp palette)) := rfl
  rw [hrun, writePalette_eq]

/-- The last access of the boot order is START. -/
theorem step_configured (p : LenBits) (src : List Byte) (size : Word) (palette : Palette) :
    step (configured p src size palette) = exec .start (configured p src size palette).tick := rfl

/-- With `r` strips to convert, the boot order starts an automatic run. -/
theorem run_boot (p : LenBits) (src : List Byte) (palette : Palette) {r : Nat} (h1 : 1 ≤ r)
    (hr : 256 * r < 2 ^ p.bits) :
    ∃ t, core.run bootSteps (State.launch p src (bootScript (BitVec.ofNat 32 (256 * r)) palette)) = .next t ∧
      AutomaticRun src palette r t ∧ t.hdrSent = false := by
  have hword := p.two_pow_le
  have hsize : (truncTo p.bits (BitVec.ofNat 32 (256 * r))).toNat = 256 * r := by
    rw [truncTo_toNat, BitVec.toNat_ofNat, Nat.mod_eq_of_lt (a := 256 * r) (by omega), Nat.mod_eq_of_lt hr]
  have hlen : (configured p src (BitVec.ofNat 32 (256 * r)) palette).tick.len.toNat = 256 * r := hsize
  have hstart := (step_configured p src (BitVec.ofNat 32 (256 * r)) palette).trans
    (exec_of_ownEffect rfl (.start (by rw [hlen]; omega) (by rw [hlen]; omega)))
  have hrun := (run_add core 1 (run_boot_configured p src (BitVec.ofNat 32 (256 * r)) palette)).trans
    (run_succ core hstart)
  have hinv := (invariantHoldsAtLaunch p src _).ran hrun
  have hn := (hinv.started (.inl rfl)).2
  exact ⟨_, hrun, ⟨hinv, rfl, rfl, rfl, rfl, rfl, by rw [beginConversion_len, hlen] at hn; omega, rfl⟩, rfl⟩

/-! ### The Source ends before the conversion -/

/-- Where the next strip is not in the Source whole, the next step is READ_STRIP's fault. -/
theorem AutomaticRun.truncated {src : List Byte} {palette : Palette} {r q : Nat} {s : State}
    (h : AutomaticRun src palette r s) (ha : AfterStrips q s) (hq : q < r) (hsrc : src.length < 256 * (q + 1)) :
    step s = .next { s with
      chunkValid := false, cur := BitVec.ofNat 32 src.length
      phase := .error, err := .streamTruncation, errOp := 0x3000#16 } := by
  have hcur := h.inv.curIsStrips (by simp [h.phase])
  have hl : s.lines.toNat = 8 * s.strip.toNat := by rw [ha.lines, ha.strip]
  have hs : s.strip.toNat < s.nstrips.toNat := by rw [ha.strip, h.nstrips]; exact hq
  have hnext : nextOp s = .readStrip := by simp [nextOp, ha.hdrSent, ha.lineLen, ha.sliceValid, hl, hs]
  rw [h.step_eq, hnext, readStripTruncationConsumesTheTail s h.inv h.phase ha.hdrSent hs hl ha.lineLen ha.sliceValid
    (by rw [h.src, hcur, ha.strip]; omega), h.src]

/-- Settles O46: the boot order, then the whole strips of the Source, then one READ_STRIP that meets its end. -/
theorem shortSourceEndsInTruncation : Obligations.ShortSourceEndsInTruncation := by
  unfold Obligations.ShortSourceEndsInTruncation
  intro p src palette r h1 hr hshort
  obtain ⟨s, hboot, hs, hh⟩ := run_boot p src palette h1 hr
  obtain ⟨u, hrun, hu, hafter⟩ := hs.run_to_afterStrips hh (q := src.length / 256) (by omega) (by omega)
  have hstep := hu.truncated hafter (by omega) (by omega)
  have hcur : (BitVec.ofNat 32 src.length).toNat = src.length := by
    have := p.two_pow_le
    rw [BitVec.toNat_ofNat, Nat.mod_eq_of_lt (by omega)]
  have hend : core.run (bootSteps + (2 + 265 * (src.length / 256)))
      (State.launch p src (bootScript (BitVec.ofNat 32 (256 * r)) palette)) = core.run 1 u := by
    rw [run_add core _ hboot, show 2 + 265 * (src.length / 256) = 1 + 265 * (src.length / 256) + 1 by omega,
      run_add core 1 hrun]
  refine ⟨_, hend.trans (run_succ core hstep), rfl, rfl, rfl, hcur, hafter.strip, rfl, ?_⟩
  rw [← hafter.lines]
  exact hu.out_eq hafter.hdrSent

end Sys2Proof.Machine
end

section
/-! PROOF. The bitplane decoder (42_bitplane_decoder.md): the closed form of DecodeRow (R95), the CHUNK addresses of
DECODE_SLICE (R99), its two ways to end (R93), and the image an automatic run makes of the Source (R100,
43_image_assembler.md R119). -/

namespace Sys2Proof.Machine

/-! ### An automatic run to its end -/

/-- With every strip out, the next step is FINISH. -/
theorem AutomaticRun.finishes {src : List Byte} {palette : Palette} {r : Nat} {s : State}
    (h : AutomaticRun src palette r s) (ha : AfterStrips r s) : step s = .next { s with phase := .done } := by
  have hs : s.strip = s.nstrips := BitVec.eq_of_toNat_eq (by rw [ha.strip, h.nstrips])
  have hl : s.lines.toNat = 8 * s.nstrips.toNat := by rw [ha.lines, h.nstrips]
  have hnext : nextOp s = .finish := by simp [nextOp, ha.hdrSent, ha.lineLen, ha.sliceValid, hs, hl]
  rw [h.step_eq, hnext, exec_of_ownEffect h.phase (.finish ha.hdrSent hs hl ha.lineLen ha.sliceValid)]

/-- Settles O45: the boot order, then the steps that put all `r` strips out, then FINISH. -/
theorem automaticConversionEmitsTheWholeImage : Obligations.AutomaticConversionEmitsTheWholeImage := by
  unfold Obligations.AutomaticConversionEmitsTheWholeImage
  intro p src palette r h1 hr hsrc
  obtain ⟨s, hboot, hs, hh⟩ := run_boot p src palette h1 hr
  obtain ⟨u, hrun, hu, hafter⟩ := hs.run_to_afterStrips hh le_rfl hsrc
  have hend : core.run (bootSteps + (2 + 265 * r))
      (State.launch p src (bootScript (BitVec.ofNat 32 (256 * r)) palette)) = core.run 1 u := by
    rw [run_add core _ hboot, show 2 + 265 * r = 1 + 265 * r + 1 by omega, run_add core 1 hrun]
  have hne : u.phase ≠ .error := by simp [hu.phase]
  have hcur : u.cur.toNat = 256 * r := by rw [hu.inv.curIsStrips hne, hafter.strip]
  have hout := hu.out_eq hafter.hdrSent
  rw [hafter.lines] at hout
  exact ⟨_, hend.trans (run_succ core (hu.finishes hafter)), rfl, (hu.inv.noFault hne).1, hu.nstrips, hcur, hout⟩

/-! ### DecodeRow (R95) -/

/-- A pixel is its low bit plus twice its high bit. -/
theorem lanePixel_toNat (lo hi : Byte) (i : Nat) :
    (lanePixel lo hi i).toNat = (lo.getLsbD (7 - i)).toNat + 2 * (hi.getLsbD (7 - i)).toNat := by
  unfold lanePixel
  cases lo.getLsbD (7 - i) <;> cases hi.getLsbD (7 - i) <;> rfl

/-- Settles O5: each lane the loop leaves is `lanePixel`, whose value is the sum. -/
theorem decodeRowIsTheClosedForm : Obligations.DecodeRowIsTheClosedForm := by
  unfold Obligations.DecodeRowIsTheClosedForm
  intro lo hi i
  rw [decodeRow_getElem lo hi i.val i.isLt, lanePixel_toNat]

/-! ### The addresses of DECODE_SLICE (R99) -/

theorem tileBase_toNat (cx : BitVec 4) : (tileBase cx).toNat = 16 * cx.toNat := by
  revert cx
  decide

/-- Settles O6: no address wraps, and the operands' widths bound the sums. -/
theorem chunkAddressesStayInTheStrip : Obligations.ChunkAddressesStayInTheStrip := by
  unfold Obligations.ChunkAddressesStayInTheStrip
  intro cx py
  have hcx := cx.isLt
  have hpy := py.isLt
  rw [tileBase_toNat, loAddr_toNat, hiAddr_toNat]
  omega

/-! ### DECODE_SLICE (R93) -/

/-- The byte at a CHUNK address, named by the address's value. -/
theorem chunk_getElem?_of_toNat {s : State} {a : BitVec 8} {n : Nat} (h : a.toNat = n) :
    s.chunk[n]? = some (chunkByte s a) := by
  subst h
  exact Vector.getElem?_eq_getElem a.isLt

/-- The op word of format D, its fields put in place by shifts (30_encoding.md R67). -/
theorem encode_decodeSlice (cx : BitVec 4) (py : BitVec 3) :
    encode (.decodeSlice cx py) = 0x4000#16 ||| cx.setWidth 16 <<< 8 ||| py.setWidth 16 <<< 4 := by
  revert cx py
  decide

/-- Settles O7: in sequence the two bytes are those at the addresses of R99; a failing precondition is a clause of
`OutOfSequence`. -/
theorem decodeSliceDecodesOneTileRow : Obligations.DecodeSliceDecodesOneTileRow := by
  unfold Obligations.DecodeSliceDecodesOneTileRow
  intro cx py s hp
  constructor
  · intro hc hv
    exact ⟨_, _, chunk_getElem?_of_toNat (loAddr_toNat cx py), chunk_getElem?_of_toNat (hiAddr_toNat cx py),
      exec_of_ownEffect hp (.decodeSlice hc hv)⟩
  · intro h
    have ho : OutOfSequence (.decodeSlice cx py) s := .inr h
    rw [exec_of_outOfSequence (by simp [hp]) ho, encode_decodeSlice]
    rfl

end Sys2Proof.Machine
end

section
/-! PROOF. The sequencer against the canonical schedule (43_image_assembler.md R117, R118, R119). The idea: the steps
left tell the place in the schedule. `canonicalSchedule` has `3 + 265 R` operations, and the operation issued with `n`
steps left is the one `n` places before its end. -/

namespace Sys2Proof.Machine

/-! ### An automatic run with the Source long enough (R119) -/

/-- With a Source of at least LEN bytes the strip READ_STRIP is to read is there whole. -/
theorem State.Inv.strip_inSource {s t : State} (h : s.Inv) (hp : s.phase = .run) (hsrc : s.len.toNat ≤ s.src.length)
    (he : OwnEffect .readStrip s t) : s.cur.toNat + 256 ≤ s.src.length := by
  obtain ⟨_, hs, _⟩ := he.readStrip_ready
  obtain ⟨_, hlen⟩ := h.started (.inl hp)
  have hcur := h.curIsStrips (by simp [hp])
  omega

/-- An operation of RUN leaves RUN by FINISH alone, if READ_STRIP finds its strip. -/
theorem OwnEffect.phase_of_gate_run {i : Instr} {s t : State} (he : OwnEffect i s t) (hg : gatePhase i = .run)
    (hp : s.phase = .run) (hfull : i = .readStrip → s.cur.toNat + 256 ≤ s.src.length) :
    t.phase = .run ∨ t.phase = .done ∧ i = .finish := by
  cases he with
  | start | badLength => contradiction
  | truncated _ _ _ _ _ ht =>
    have := srcTake_short_lt ht
    have := hfull rfl
    omega
  | finish => exact .inr ⟨rfl, rfl⟩
  | emitHeader | readStrip | decodeSlice | appendSlice | emitScanline => exact .inl hp

/-- The operation issued has its own effect, ends in RUN or is FINISH, and brings the run one step nearer to its end. -/
theorem State.Inv.nextOp_advances {s : State} (h : s.Inv) (hp : s.phase = .run) (ha : s.auto = true)
    (hsrc : s.len.toNat ≤ s.src.length) :
    ∃ t, OwnEffect (nextOp s) s t ∧ (t.phase = .run ∨ t.phase = .done ∧ nextOp s = .finish) ∧
      stepsLeft t + 1 = stepsLeft s := by
  obtain ⟨t, he⟩ := h.nextOp_ownEffect hp ha
  have hfull : nextOp s = .readStrip → s.cur.toNat + 256 ≤ s.src.length :=
    fun hi => h.strip_inSource hp hsrc (hi ▸ he : OwnEffect .readStrip s t)
  exact ⟨t, he, he.phase_of_gate_run (gatePhase_nextOp s) hp hfull, he.stepsLeft_succ h hp ha rfl hfull⟩

theorem exec_nextOp {s t : State} (hp : s.phase = .run) (he : OwnEffect (nextOp s) s t) : exec (nextOp s) s = .next t :=
  exec_of_ownEffect (hp.trans (gatePhase_nextOp s).symm) he

/-- Settles O42: the invariant keeps every precondition of the operation issued, and each takes one step off. -/
theorem sequencerStepsTowardDone : Obligations.SequencerStepsTowardDone := by
  unfold Obligations.SequencerStepsTowardDone
  intro s h hp ha hsrc
  obtain ⟨t, he, hphase, hleft⟩ := h.nextOp_advances hp ha hsrc
  exact ⟨t, exec_nextOp hp he, hphase, hleft⟩

/-! ### Places in the schedule (R117) -/

/-- `n` parts of one length `m`, one after the other. -/
theorem length_range_flatMap {α : Type*} {f : Nat → List α} {m : Nat} (hf : ∀ q, (f q).length = m) (n : Nat) :
    ((List.range n).flatMap f).length = m * n := by
  simp [List.length_flatMap, hf, Nat.mul_comm]

/-- Parts of one length `m`, one after the other: place `m q + j` is place `j` of part `q`. -/
theorem getElem?_range_flatMap {α : Type*} {f : Nat → List α} {m : Nat} (hf : ∀ q, (f q).length = m) {n q j : Nat}
    (hq : q < n) (hj : j < m) : ((List.range n).flatMap f)[m * q + j]? = (f q)[j]? := by
  induction n with
  | zero => contradiction
  | succ n ih =>
    have hlen := length_range_flatMap hf n
    rw [List.range_succ, List.flatMap_append, List.flatMap_singleton]
    rcases Nat.lt_or_eq_of_le (Nat.le_of_lt_succ hq) with hlt | rfl
    · have hm : m * q + m ≤ m * n := Nat.mul_le_mul_left m hlt
      rw [List.getElem?_append_left (by omega), ih hlt]
    · rw [List.getElem?_append_right (by omega), hlen, Nat.add_sub_cancel_left]

/-- A pair of R104: DECODE_SLICE `cx` and then APPEND_SLICE. -/
def slicePair (py : BitVec 3) (cx : Nat) : List Instr := [.decodeSlice (BitVec.ofNat 4 cx) py, .appendSlice]

theorem scanlineSchedule_eq (py : BitVec 3) :
    scanlineSchedule py = (List.range 16).flatMap (slicePair py) ++ [.emitScanline] := rfl

theorem length_scanlineSchedule (py : BitVec 3) : (scanlineSchedule py).length = 33 := rfl

theorem length_stripSchedule : stripSchedule.length = 265 := by
  rw [stripSchedule, List.length_cons, length_range_flatMap fun y => length_scanlineSchedule (BitVec.ofNat 3 y)]

theorem length_canonicalSchedule (r : Nat) : (canonicalSchedule r).length = 3 + 265 * r := by
  have hlen := length_range_flatMap (f := fun _ => stripSchedule) (fun _ => length_stripSchedule) r
  simp only [canonicalSchedule, List.length_append, hlen, List.length_cons, List.length_nil]
  omega

theorem scanlineSchedule_pair (py : BitVec 3) {cx j : Nat} (hcx : cx < 16) (hj : j < 2) :
    (scanlineSchedule py)[2 * cx + j]? = (slicePair py cx)[j]? := by
  have hlen := length_range_flatMap (f := slicePair py) (m := 2) (fun _ => rfl) 16
  rw [scanlineSchedule_eq, List.getElem?_append_left (by omega),
    getElem?_range_flatMap (f := slicePair py) (m := 2) (fun _ => rfl) hcx hj]

theorem scanlineSchedule_emitScanline (py : BitVec 3) : (scanlineSchedule py)[32]? = some .emitScanline := rfl

theorem stripSchedule_row {y k : Nat} (hy : y < 8) (hk : k < 33) :
    stripSchedule[33 * y + k + 1]? = (scanlineSchedule (BitVec.ofNat 3 y))[k]? := by
  rw [stripSchedule, List.getElem?_cons_succ,
    getElem?_range_flatMap (fun y => length_scanlineSchedule (BitVec.ofNat 3 y)) hy hk]

theorem canonicalSchedule_emitHeader (r : Nat) : (canonicalSchedule r)[1]? = some .emitHeader := rfl

theorem canonicalSchedule_strip {r q j : Nat} (hq : q < r) (hj : j < 265) :
    (canonicalSchedule r)[265 * q + j + 2]? = stripSchedule[j]? := by
  have hlen := length_range_flatMap (f := fun _ => stripSchedule) (fun _ => length_stripSchedule) r
  rw [canonicalSchedule, List.append_assoc, List.cons_append, List.cons_append, List.nil_append,
    List.getElem?_cons_succ, List.getElem?_cons_succ, List.getElem?_append_left (by omega),
    getElem?_range_flatMap (fun _ => length_stripSchedule) hq hj]

theorem canonicalSchedule_finish (r : Nat) : (canonicalSchedule r)[265 * r + 2]? = some .finish := by
  have hlen := length_range_flatMap (f := fun _ => stripSchedule) (fun _ => length_stripSchedule) r
  rw [canonicalSchedule, List.append_assoc, List.cons_append, List.cons_append, List.nil_append,
    List.getElem?_cons_succ, List.getElem?_cons_succ, List.getElem?_append_right (by omega), hlen, Nat.sub_self]
  rfl

/-! ### The sequencer's place in the schedule (R118) -/

/-- The place, in the schedule for NSTRIPS strips, of the operation issued next. -/
def schedulePlace (s : State) : Nat := 3 + 265 * s.nstrips.toNat - stepsLeft s

theorem State.Inv.stepsLeft_le {s : State} (h : s.Inv) (hp : s.phase = .run) :
    stepsLeft s ≤ 2 + 265 * s.nstrips.toNat := by
  have hrange := h.stripRange
  have hlines := h.linesRange
  cases hh : s.hdrSent with
  | false => rw [stepsLeft_beforeHeader hp hh]
  | true =>
    rw [stepsLeft_afterHeader hp hh]
    omega

/-- Between two strips the place is that of READ_STRIP or FINISH. -/
theorem State.Inv.schedulePlace_stripClosed {s : State} (h : s.Inv) (hp : s.phase = .run) (hh : s.hdrSent = true)
    (hl : s.lines.toNat = 8 * s.strip.toNat) : schedulePlace s = 265 * s.strip.toNat + 2 := by
  have hrange := h.stripRange
  rw [schedulePlace, stepsLeft_stripClosed hp hh hl]
  omega

/-- Within a strip the schedule has in that place the operation that LINE_LEN and SLICE_VALID name in the row. -/
theorem State.Inv.schedule_row {s : State} (h : s.Inv) (hp : s.phase = .run) (hopen : s.lines.toNat < 8 * s.strip.toNat)
    {k : Nat} (hk : k < 33) (hplace : 2 * (s.lineLen.toNat / 8) + s.sliceValid.toNat = k) :
    (canonicalSchedule s.nstrips.toNat)[schedulePlace s]? =
      (scanlineSchedule (BitVec.ofNat 3 (s.lines.toNat % 8)))[k]? := by
  have hh := h.headerFirst (by omega)
  have hrange := h.stripRange
  have hlines := h.linesRange
  have hat : schedulePlace s = 265 * (s.strip.toNat - 1) + (33 * (s.lines.toNat % 8) + k + 1) + 2 := by
    rw [schedulePlace, stepsLeft_afterHeader hp hh, hplace]
    omega
  rw [hat, canonicalSchedule_strip (by omega) (by omega), stripSchedule_row (by omega) hk]

/-- The operation the sequencer issues is the one the schedule has in its place. -/
theorem OwnEffect.scheduled {i : Instr} {s t : State} (he : OwnEffect i s t) (h : s.Inv) (hp : s.phase = .run)
    (ha : s.auto = true) (hi : i = nextOp s) :
    (canonicalSchedule s.nstrips.toNat)[schedulePlace s]? = some i := by
  have hcan := h.canonical ha
  have hlen := h.lineLenRange
  cases he with
  | start | badLength => exact absurd (gatePhase_nextOp s) (hi ▸ nofun)
  | emitHeader hh =>
    have hat : schedulePlace s = 1 := by rw [schedulePlace, stepsLeft_beforeHeader hp hh]; omega
    rw [hat, canonicalSchedule_emitHeader]
  | readStrip hh hs hl | truncated hh hs hl =>
    rw [h.schedulePlace_stripClosed hp hh hl]
    exact canonicalSchedule_strip (j := 0) hs (by decide)
  | decodeSlice hc hv =>
    obtain ⟨hlt, hopen, rfl, rfl⟩ := hcan.rowOpen h hi.symm
    rw [h.schedule_row hp hopen (k := 2 * (s.lineLen.toNat / 8) + 0) (by omega) (by rw [hv, Bool.toNat_false]),
      scanlineSchedule_pair _ (by omega) (by decide)]
    rfl
  | appendSlice hv hl =>
    have hclosed : s.lines.toNat ≠ 8 * s.strip.toNat := fun he => by simp [(hcan.stripClosed he).2] at hv
    have hlines := h.linesRange
    rw [h.schedule_row hp (by omega) (k := 2 * (s.lineLen.toNat / 8) + 1) (by omega) (by rw [hv, Bool.toNat_true]),
      scanlineSchedule_pair _ (by omega) (by decide)]
    rfl
  | emitScanline hl hs =>
    have hv : s.sliceValid = false := by
      by_contra hv
      have := hcan.sliceFits (by simpa using hv)
      omega
    rw [h.schedule_row hp hs (k := 32) (by decide) (by rw [hl, hv, Bool.toNat_false]), scanlineSchedule_emitScanline]
  | finish hh hs hl =>
    rw [h.schedulePlace_stripClosed hp hh (hs ▸ hl), hs, canonicalSchedule_finish]

/-! ### The operations issued (R117, R119) -/

/-- No operation of RUN touches CTRL, LEN, SRC or NSTRIPS. -/
theorem OwnEffect.keepsConfig {i : Instr} {s t : State} (he : OwnEffect i s t) (hg : gatePhase i = .run) :
    t.auto = s.auto ∧ t.len = s.len ∧ t.src = s.src ∧ t.nstrips = s.nstrips := by
  cases he with
  | start | badLength => contradiction
  | emitHeader | readStrip | truncated | decodeSlice | appendSlice | emitScanline | finish =>
    exact ⟨rfl, rfl, rfl, rfl⟩

theorem issued_succ {n : Nat} {s t : State} (hp : s.phase = .run) (ha : s.auto = true)
    (hx : exec (nextOp s) s = .next t) : issued (n + 1) s = nextOp s :: issued n t := by
  rw [issued, if_pos (autoRun_iff.2 ⟨hp, ha⟩), hx]

/-- With `n` steps left the sequencer issues the last `n` operations of the schedule. -/
theorem State.Inv.issued_eq_drop {s : State} (h : s.Inv) (ha : s.auto = true) (hsrc : s.len.toNat ≤ s.src.length)
    {n : Nat} (hn : stepsLeft s = n) :
    issued n s = (canonicalSchedule s.nstrips.toNat).drop (3 + 265 * s.nstrips.toNat - n) := by
  induction n generalizing s with
  | zero => rw [issued, Nat.sub_zero, ← length_canonicalSchedule, List.drop_length]
  | succ n ih =>
    have hp : s.phase = .run := by
      by_contra hp
      simp [stepsLeft, hp] at hn
    obtain ⟨t, he, _, hleft⟩ := h.nextOp_advances hp ha hsrc
    have hx := exec_nextOp hp he
    obtain ⟨hta, htl, hts, htn⟩ := he.keepsConfig (gatePhase_nextOp s)
    have hrest := ih (s := t) (h.executed (fun _ _ => rfl) hx) (hta.trans ha) (by rwa [htl, hts]) (by omega)
    have hplace := he.scheduled h hp ha rfl
    have hle := h.stepsLeft_le hp
    rw [schedulePlace, hn, List.getElem?_eq_some_iff] at hplace
    obtain ⟨hlt, hget⟩ := hplace
    rw [issued_succ hp ha hx, hrest, htn, List.drop_eq_getElem_cons hlt, hget,
      show 3 + 265 * s.nstrips.toNat - (n + 1) + 1 = 3 + 265 * s.nstrips.toNat - n by omega]

/-- START that moves to RUN is START with a legal length. -/
theorem exec_start_run {s t : State} (hp : s.phase = .idle) (hx : exec .start s = .next t) (hr : t.phase = .run) :
    t = beginConversion s := by
  rcases exec_cases hx with ⟨he, _⟩ | ⟨_, hg, _⟩ | ⟨_, he⟩
  · simp [hp] at he
  · exact absurd hp hg
  cases he with
  | start => rfl
  | badLength => contradiction

/-- Settles O44: after START all but the schedule's first operation are left. -/
theorem sequencerIssuesTheCanonicalSchedule : Obligations.SequencerIssuesTheCanonicalSchedule := by
  unfold Obligations.SequencerIssuesTheCanonicalSchedule
  intro s t h hp ha hsrc hx hr
  have ht : t.Inv := h.executed (fun hrun => by simp [hp] at hrun) hx
  have hlen := (ht.started (.inl hr)).2
  obtain rfl := exec_start_run hp hx hr
  have hn : (beginConversion s).nstrips.toNat = s.len.toNat / 256 := by
    rw [beginConversion_len] at hlen
    omega
  rw [← hn, ht.issued_eq_drop ha hsrc (stepsLeft_beforeHeader hr rfl),
    show 3 + 265 * (beginConversion s).nstrips.toNat - (2 + 265 * (beginConversion s).nstrips.toNat) = 1 by omega]
  rfl

end Sys2Proof.Machine
end

section
/-! PROOF. The image assembler's operations (43_image_assembler.md R103, R109, R111), the sixteen pairs that build a
scanline (R104), and the sequencer's choice and turn (R118). -/

namespace Sys2Proof.Machine

/-! ### The operations -/

theorem writeSlice_inside {l : LineBuf} {n : Nat} {p : Slice} (hn : n ≤ 120) (i : Fin 8) :
    (writeSlice l n p)[n + i.val]? = some p[i.val] := by
  have hi : n + i.val < 128 := by omega
  rw [Vector.getElem?_eq_getElem hi, writeSlice_getElem, dif_pos (by omega)]
  simp only [Nat.add_sub_cancel_left]

theorem writeSlice_outside {l : LineBuf} {n : Nat} {p : Slice} {j : Nat} (hj : j < 128) (h : j < n ∨ n + 8 ≤ j) :
    (writeSlice l n p)[j] = l[j] := by
  rw [writeSlice_getElem, dif_neg (by omega)]

/-- Settles O11: the pixels are `writeSlice`'s; a failing precondition is a clause of `OutOfSequence`. -/
theorem appendSliceConcatenates : Obligations.AppendSliceConcatenates := by
  unfold Obligations.AppendSliceConcatenates
  intro s hp
  constructor
  · intro hv hl
    exact ⟨writeSlice s.line s.lineLen.toNat s.slice, writeSlice_inside hl, fun j hj => writeSlice_outside j.isLt hj,
      exec_of_ownEffect hp (.appendSlice hv hl)⟩
  · intro h
    exact exec_of_outOfSequence (by simp [hp]) (.inr h)

/-- LINES does not wrap below `8 × STRIP`, for `8 × STRIP` fits its width. -/
theorem State.Fits.lines_succ {s : State} (h : s.Fits) (hs : s.lines.toNat < 8 * s.strip.toNat) :
    truncTo s.lenBits.lineBits (s.lines + 1) = s.lines + 1 := by
  have hfit := h.strip
  have hbits := s.lenBits.two_pow_lineBits
  have hbits' := s.lenBits.two_pow_bits
  have hword := s.lenBits.two_pow_le
  have hnext := word_succ (v := s.lines) (by omega)
  exact truncTo_eq_self (by omega)

/-- Settles O13: LINES + 1 fits its width; a failing precondition is a clause of `OutOfSequence`. -/
theorem emitScanlineEmitsTheLine : Obligations.EmitScanlineEmitsTheLine := by
  unfold Obligations.EmitScanlineEmitsTheLine
  intro s h hp
  constructor
  · intro hl hs
    rw [exec_of_ownEffect hp (.emitScanline hl hs), h.lines_succ hs]
    rfl
  · intro ho
    exact exec_of_outOfSequence (by simp [hp]) (.inr ho)

/-- Settles O14: the header is `imageHeader`, whose height fits its width; a second header is out of sequence. -/
theorem emitHeaderSuppliesTheMetadata : Obligations.EmitHeaderSuppliesTheMetadata := by
  unfold Obligations.EmitHeaderSuppliesTheMetadata
  intro s h hp
  constructor
  · intro hh
    rw [exec_of_ownEffect hp (.emitHeader hh), h.imageHeader_eq]
    rfl
  · intro hh
    exact exec_of_outOfSequence (by simp [hp]) (.inr hh)

/-! ### Sixteen pairs build a scanline (R104) -/

theorem execAll_cons {i : Instr} {is : List Instr} {s t : State} (h : exec i s = .next t) :
    execAll (i :: is) s = execAll is t := by
  rw [execAll, h]

theorem execAll_append {is js : List Instr} {s t : State} (h : execAll is s = .next t) :
    execAll (is ++ js) s = execAll js t := by
  induction is generalizing s with
  | nil =>
    cases h
    rfl
  | cons i is ih =>
    rw [execAll] at h
    split at h
    · next hx => rw [List.cons_append, execAll_cons hx, ih h]
    · contradiction
    · contradiction

/-- The slice DECODE_SLICE `cx`, `py` makes of CHUNK. -/
def tileRow (s : State) (py : BitVec 3) (cx : Nat) : Slice :=
  decodeRow (chunkByte s (loAddr (BitVec.ofNat 4 cx) py)) (chunkByte s (hiAddr (BitVec.ofNat 4 cx) py))

/-- LINE after the first `n` pairs. -/
def lineAfterPairs (s : State) (py : BitVec 3) : Nat → LineBuf
  | 0 => s.line
  | n + 1 => writeSlice (lineAfterPairs s py n) (8 * n) (tileRow s py n)

/-- SLICE's bits after the first `n` pairs: those of the last one. -/
def sliceAfterPairs (s : State) (py : BitVec 3) : Nat → Slice
  | 0 => s.slice
  | n + 1 => tileRow s py n

/-- The state after the first `n` pairs. -/
def afterPairs (s : State) (py : BitVec 3) (n : Nat) : State :=
  { s with
    line := lineAfterPairs s py n
    lineLen := BitVec.ofNat 8 (8 * n)
    slice := sliceAfterPairs s py n
    sliceValid := false }

theorem afterPairs_zero {s : State} (hv : s.sliceValid = false) (hn : s.lineLen = 0) (py : BitVec 3) :
    afterPairs s py 0 = s := by
  cases s
  cases hv
  cases hn
  rfl

/-- Between the two operations of pair `n`. -/
def withinPair (s : State) (py : BitVec 3) (n : Nat) : State :=
  { afterPairs s py n with slice := tileRow s py n, sliceValid := true }

theorem exec_decodeSlice_afterPairs {s : State} (hp : s.phase = .run) (hc : s.chunkValid = true) (py : BitVec 3)
    (n : Nat) : exec (.decodeSlice (BitVec.ofNat 4 n) py) (afterPairs s py n) = .next (withinPair s py n) :=
  exec_of_ownEffect (i := .decodeSlice _ _) hp (.decodeSlice hc rfl)

theorem exec_appendSlice_withinPair {s : State} (hp : s.phase = .run) (py : BitVec 3) {n : Nat} (hn : n < 16) :
    exec .appendSlice (withinPair s py n) = .next (afterPairs s py (n + 1)) := by
  have hlen : (withinPair s py n).lineLen.toNat = 8 * n := by
    rw [withinPair, afterPairs, BitVec.toNat_ofNat, Nat.mod_eq_of_lt (by omega)]
  have hnext : (withinPair s py n).lineLen + 8 = BitVec.ofNat 8 (8 * (n + 1)) := by
    rw [Nat.mul_succ, BitVec.ofNat_add]
    rfl
  rw [exec_of_ownEffect (i := .appendSlice) (s := withinPair s py n) hp (.appendSlice rfl (by omega)), hlen, hnext]
  rfl

/-- One pair appends the next tile's row. -/
theorem execAll_slicePair {s : State} (hp : s.phase = .run) (hc : s.chunkValid = true) (py : BitVec 3) {n : Nat}
    (hn : n < 16) : execAll (slicePair py n) (afterPairs s py n) = .next (afterPairs s py (n + 1)) := by
  rw [slicePair, execAll_cons (exec_decodeSlice_afterPairs hp hc py n),
    execAll_cons (exec_appendSlice_withinPair hp py hn), execAll]

theorem execAll_slicePairs {s : State} (hp : s.phase = .run) (hc : s.chunkValid = true) (hv : s.sliceValid = false)
    (hl : s.lineLen = 0) (py : BitVec 3) {n : Nat} (hn : n ≤ 16) :
    execAll ((List.range n).flatMap (slicePair py)) s = .next (afterPairs s py n) := by
  induction n with
  | zero => rw [afterPairs_zero hv hl]; rfl
  | succ n ih =>
    rw [List.range_succ, List.flatMap_append, List.flatMap_singleton, execAll_append (ih (by omega)),
      execAll_slicePair hp hc py hn]

/-- After `n` pairs LINE holds the rows of the first `n` tiles, each in its place. -/
theorem lineAfterPairs_getElem? (s : State) (py : BitVec 3) {n cx : Nat} (hn : n ≤ 16) (hcx : cx < n) (i : Fin 8) :
    (lineAfterPairs s py n)[8 * cx + i.val]? = some (tileRow s py cx)[i.val] := by
  induction n with
  | zero => contradiction
  | succ n ih =>
    rw [lineAfterPairs]
    rcases Nat.lt_or_eq_of_le (Nat.le_of_lt_succ hcx) with hlt | rfl
    · have hj : 8 * cx + i.val < 128 := by omega
      rw [← ih (by omega) hlt, Vector.getElem?_eq_getElem hj, Vector.getElem?_eq_getElem hj,
        writeSlice_outside hj (.inl (by omega))]
    · exact writeSlice_inside (by omega) i

/-- Settles O12: an induction on the pairs, of which the last leaves SLICE and LINE_LEN = 128. -/
theorem sixteenPairsBuildTheScanline : Obligations.SixteenPairsBuildTheScanline := by
  unfold Obligations.SixteenPairsBuildTheScanline
  intro s py hp hc hv hl
  exact ⟨lineAfterPairs s py 16, execAll_slicePairs hp hc hv hl py le_rfl,
    fun cx i => lineAfterPairs_getElem? s py le_rfl cx.isLt i⟩

/-! ### The sequencer (R118) -/

theorem coreTurn_autoRun {s : State} (hp : s.phase = .run) (ha : s.auto = true) : coreTurn s = exec (nextOp s) s :=
  if_pos (autoRun_iff.2 ⟨hp, ha⟩)

theorem coreTurn_waits {s : State} (h : ¬(s.phase = .run ∧ s.auto = true)) : coreTurn s = .next s :=
  if_neg (by rwa [autoRun_iff])

theorem step_emptyScript {s : State} (h : s.inputs = []) : step s = coreTurn s := by rw [step, h]

theorem step_coreTurn {s : State} {rest : List Input} (h : s.inputs = .coreTurn :: rest) :
    step s = coreTurn { s with inputs := rest } := by
  rw [step, h]
  rfl

/-- Settles O19: either form of the Core's turn is `coreTurn`, and NextOp does not read the script. -/
theorem coreTurnRunsNextOp : Obligations.CoreTurnRunsNextOp := by
  unfold Obligations.CoreTurnRunsNextOp
  refine ⟨fun s hi hp ha => ?_, fun s rest hi hp ha => ?_, fun s hi hn => ?_, fun s rest hi hn => ?_⟩
  · exact (step_emptyScript hi).trans (coreTurn_autoRun hp ha)
  · exact (step_coreTurn hi).trans (coreTurn_autoRun (s := { s with inputs := rest }) hp ha)
  · exact (step_emptyScript hi).trans (coreTurn_waits hn)
  · exact (step_coreTurn hi).trans (coreTurn_waits (s := { s with inputs := rest }) hn)

/-- Settles O20: each clause selects one branch of `nextOp`, with LINE_LEN read as a number. -/
theorem nextOpFollowsTheCounters : Obligations.NextOpFollowsTheCounters := by
  unfold Obligations.NextOpFollowsTheCounters
  intro s
  have hfull : s.lineLen = 128 ↔ s.lineLen.toNat = 128 := by simp [← BitVec.toNat_inj]
  have hzero : s.lineLen = 0 ↔ s.lineLen.toNat = 0 := by simp [← BitVec.toNat_inj]
  refine ⟨fun hh => ?_, fun hh h128 => ?_, fun hh h128 hv => ?_, fun hh hv h0 hl hs => ?_, fun hh hv h0 hl hs => ?_,
    fun hh h128 hv hopen => ?_⟩
  · simp [nextOp, hh]
  · simp [nextOp, hh, hfull.1 h128]
  · simp [nextOp, hh, mt hfull.2 h128, hv]
  · simp [nextOp, hh, hzero.1 h0, hv, hl, hs]
  · simp [nextOp, hh, hzero.1 h0, hv, hl, Nat.not_lt.2 hs]
  · have hrow : ¬(s.lines.toNat = 8 * s.strip.toNat ∧ s.lineLen.toNat = 0) := fun ⟨hl, h0⟩ =>
      hopen.elim (fun hne => hne (hzero.2 h0)) (fun hne => hne hl)
    rw [nextOp, hh, if_neg nofun, if_neg (mt hfull.2 h128), hv, if_neg nofun, if_neg hrow]

end Sys2Proof.Machine
end

section
/-! PROOF. The control block (44_control.md): START and FINISH (R121, R124), the phase gate (R126), the operation port
CMD (R128), the host's register writes (R127, R129), and what DONE says of OUT (R125). -/

namespace Sys2Proof.Machine

/-! ### START and FINISH -/

/-- `LEN div 256` fits NSTRIPS, so START's cut keeps it whole. -/
theorem State.Fits.nstrips_begun {s : State} (h : s.Fits) :
    truncTo s.lenBits.stripBits (BitVec.ofNat 32 (s.len.toNat / 256)) = BitVec.ofNat 32 (s.len.toNat / 256) := by
  have hlen := h.len
  have hbits := s.lenBits.two_pow_bits
  have hle : (BitVec.ofNat 32 (s.len.toNat / 256)).toNat ≤ s.len.toNat / 256 := by
    rw [BitVec.toNat_ofNat]
    exact Nat.mod_le _ _
  exact truncTo_eq_self (by omega)

/-- Once a conversion has begun START is out of its phase. -/
theorem exec_start_busy {s : State} (hp : s.phase = .run ∨ s.phase = .done) :
    exec .start s = .next (raiseFault .sequenceError (encode .start) s) := by
  rcases hp with hp | hp <;> exact exec_wrong_phase .start (by simp [hp]) (by simp [gatePhase, hp])

/-- Settles O15: START's own effect in IDLE, where NSTRIPS does not wrap, and the phase gate elsewhere. -/
theorem startChecksTheLengthAndBegins : Obligations.StartChecksTheLengthAndBegins := by
  unfold Obligations.StartChecksTheLengthAndBegins
  intro s h
  refine ⟨fun hp h0 hm => ?_, fun hp hbad => ?_, exec_start_busy, exec_in_error .start⟩
  · rw [exec_of_ownEffect hp (.start h0 hm), beginConversion, h.nstrips_begun]
  · exact exec_of_ownEffect hp (.badLength hbad)

/-- Settles O16: a failing precondition is one of FINISH's clauses of `OutOfSequence`. -/
theorem finishEndsACompleteConversion : Obligations.FinishEndsACompleteConversion := by
  unfold Obligations.FinishEndsACompleteConversion
  intro s hp
  constructor
  · intro hh hs hl hn hv
    exact exec_of_ownEffect hp (.finish hh hs hl hn hv)
  · intro ho
    exact exec_of_outOfSequence (by simp [hp]) (.inr ho)

/-! ### The operation port CMD (R128) -/

theorem cmdWrite_autoRun {s : State} (hp : s.phase = .run) (ha : s.auto = true) (w : OpWord) :
    cmdWrite w s = .next (raiseFault .sequenceError w s) :=
  if_pos (autoRun_iff.2 ⟨hp, ha⟩)

theorem cmdWrite_legal {s : State} {w : OpWord} {i : Instr} (hn : ¬(s.phase = .run ∧ s.auto = true))
    (hd : decode w = .ok i) : cmdWrite w s = exec i s := by
  rw [cmdWrite, autoRun_false hn, if_neg nofun, hd]

theorem cmdWrite_illegal {s : State} {w : OpWord} {e : DecodeError} (hn : ¬(s.phase = .run ∧ s.auto = true))
    (hd : decode w = .error e) : cmdWrite w s = illegalWord w s := by
  rw [cmdWrite, autoRun_false hn, if_neg nofun, hd]

theorem illegalWord_raises {s : State} (he : s.phase ≠ .error) (w : OpWord) :
    illegalWord w s = .next (raiseFault .illegalOperation w s) := if_neg he

theorem illegalWord_in_error {s : State} (he : s.phase = .error) (w : OpWord) : illegalWord w s = .next s := if_pos he

/-- In ERROR a CMD write has no effect, whatever the word. -/
theorem cmdWrite_in_error {s : State} (he : s.phase = .error) (w : OpWord) : cmdWrite w s = .next s := by
  have hn : ¬(s.phase = .run ∧ s.auto = true) := by simp [he]
  cases hd : decode w with
  | ok i => rw [cmdWrite_legal hn hd, exec_in_error i he]
  | error e => rw [cmdWrite_illegal hn hd, illegalWord_in_error he]

/-- Every operation but START needs RUN. -/
theorem gatePhase_of_ne_start {i : Instr} (h : i ≠ .start) : gatePhase i = .run := by
  cases i with
  | start => contradiction
  | _ => rfl

/-- Settles O17: the gate's two answers for a legal operation, and those of `illegalWord`. -/
theorem phaseGateAdmitsByPhase : Obligations.PhaseGateAdmitsByPhase := by
  unfold Obligations.PhaseGateAdmitsByPhase
  refine ⟨fun i s he => exec_in_error i he, fun s => exec_start_busy, fun i s hi hp => ?_,
    fun w _ s _ he => cmdWrite_in_error he w, fun w e s hd he hn => ?_⟩
  · rcases hp with hp | hp <;> exact exec_wrong_phase i (by simp [hp]) (by simp [gatePhase_of_ne_start hi, hp])
  · exact (cmdWrite_illegal hn hd).trans (illegalWord_raises he w)

/-! ### The host's register writes (R127, R129) -/

theorem step_write {s : State} {off : Nat} {v : Word} {rest : List Input} (h : s.inputs = .write off v :: rest) :
    step s = memWrite off v { s with inputs := rest } := by
  rw [step, h]
  rfl

/-- Settles O18: a step with a CMD write is `cmdWrite` of the word at the state with the entry taken off. -/
theorem cmdWriteRunsTheDecodedOperation : Obligations.CmdWriteRunsTheDecodedOperation := by
  unfold Obligations.CmdWriteRunsTheDecodedOperation
  intro s v rest h
  have hstep : step s = cmdWrite (v.setWidth 16) { s with inputs := rest } := step_write h
  rw [hstep]
  refine ⟨fun hp ha => ?_, fun hn i hd => ?_, fun hn he e hd => ?_, fun he => ?_⟩
  · exact cmdWrite_autoRun (s := { s with inputs := rest }) hp ha _
  · exact cmdWrite_legal (s := { s with inputs := rest }) hn hd
  · exact (cmdWrite_illegal (s := { s with inputs := rest }) hn hd).trans
      (illegalWord_raises (s := { s with inputs := rest }) he _)
  · exact cmdWrite_in_error (s := { s with inputs := rest }) he _

theorem configWrite_idle {s : State} (h : s.phase = .idle) (off : Nat) (written : State) :
    configWrite off s written = .next written := by rw [configWrite, h]

theorem configWrite_busy {s : State} (h : s.phase = .run ∨ s.phase = .done) (off : Nat) (written : State) :
    configWrite off s written = .next (raiseFault .configWriteWhileBusy (BitVec.ofNat 16 off) s) := by
  rcases h with h | h <;> rw [configWrite, h]

theorem configWrite_in_error {s : State} (h : s.phase = .error) (off : Nat) (written : State) :
    configWrite off s written = .next s := by rw [configWrite, h]

theorem memWrite_pal (k : Fin 4) (v : Word) (s : State) :
    memWrite (0x01 + k.val) v s =
      configWrite (0x01 + k.val) s { s with pal := s.pal.set k.val (v.setWidth 24) k.isLt } := by
  rw [memWrite, regAt_pal]

/-- The offsets 0x00 to 0x05 are LEN, PAL0 to PAL3 and CTRL: a write there is a configuration write. -/
theorem memWrite_config {off : Nat} (h : off ≤ 0x05) (v : Word) (s : State) :
    ∃ written, memWrite off v s = configWrite off s written := by
  interval_cases off <;> exact ⟨_, rfl⟩

/-- From 0x07 up there are only read-only registers and unassigned offsets. -/
theorem memWrite_readOnly {off : Nat} (h : 0x07 ≤ off) (v : Word) (s : State) : memWrite off v s = .next s := by
  rcases Nat.lt_or_ge off 0x0E with hlt | hge
  · interval_cases off <;> rfl
  · rw [memWrite, regAt_unassigned hge]

/-- In ERROR a host write has no effect, at any offset. -/
theorem memWrite_in_error {s : State} (he : s.phase = .error) (off : Nat) (v : Word) : memWrite off v s = .next s := by
  rcases Nat.lt_trichotomy off 0x06 with hlt | rfl | hgt
  · obtain ⟨written, hw⟩ := memWrite_config (Nat.le_of_lt_succ hlt) v s
    rw [hw, configWrite_in_error he]
  · exact cmdWrite_in_error he _
  · exact memWrite_readOnly hgt v s

/-- Settles O21: an accepted configuration write, its value read as a number modulo the register's width. -/
theorem configurationWritesInIdle : Obligations.ConfigurationWritesInIdle := by
  unfold Obligations.ConfigurationWritesInIdle
  intro s off v rest h hp
  have hidle : ∀ written, configWrite off { s with inputs := rest } written = .next written :=
    configWrite_idle (s := { s with inputs := rest }) hp off
  rw [step_write h]
  refine ⟨?_, fun k => ?_, ?_⟩
  · rintro rfl
    have hcut : truncTo s.lenBits.bits v = BitVec.ofNat 32 (v.toNat % 2 ^ s.lenBits.bits) := by
      rw [← truncTo_toNat, BitVec.ofNat_toNat, BitVec.setWidth_eq]
    rw [← hcut]
    exact hidle _
  · rintro rfl
    have hcut : v.setWidth 24 = BitVec.ofNat 24 (v.toNat % 2 ^ 24) := by
      rw [← BitVec.toNat_setWidth, BitVec.ofNat_toNat, BitVec.setWidth_eq]
    rw [← hcut, memWrite_pal]
    exact hidle _
  · rintro rfl
    exact hidle _

/-- Settles O22: offsets up to 0x05 are the configuration registers, and the write faults before it names one. -/
theorem configurationWriteWhileBusyFaults : Obligations.ConfigurationWriteWhileBusyFaults := by
  unfold Obligations.ConfigurationWriteWhileBusyFaults
  intro s off v rest h hoff hp
  obtain ⟨written, hw⟩ := memWrite_config hoff v { s with inputs := rest }
  rw [step_write h, hw]
  exact configWrite_busy (s := { s with inputs := rest }) hp off written

/-- Settles O23: no host write has an effect in ERROR, and none from 0x07 up in any phase. -/
theorem ignoredWritesHaveNoEffect : Obligations.IgnoredWritesHaveNoEffect := by
  unfold Obligations.IgnoredWritesHaveNoEffect
  intro s off v rest h hcase
  rw [step_write h]
  rcases hcase with he | hoff
  · exact memWrite_in_error (s := { s with inputs := rest }) he off v
  · exact memWrite_readOnly hoff v _

/-! ### DONE means a complete image (R125) -/

/-- The outline of a header is the header itself. -/
theorem Record.eq_header_of_outline {r : Record} {h : Header} (hr : r.outline = .header h) : r = .header h := by
  cases r with
  | header _ => exact hr
  | scanline _ => contradiction

/-- The outline of a scanline keeps its row. -/
theorem Record.eq_scanline_of_outline {r : Record} {row : Word} {p : LineBuf} (hr : r.outline = .scanline ⟨row, p⟩) :
    ∃ pixels, r = .scanline ⟨row, pixels⟩ := by
  cases r with
  | header _ => contradiction
  | scanline l =>
    cases hr
    exact ⟨l.pixels, rfl⟩

/-- Records with the outlines of rows 0 to `n − 1` are `n` scanlines in that order. -/
theorem exists_rows_of_outline {n : Nat} {records : List Record} {p : LineBuf}
    (h : records.map Record.outline = (List.range n).map fun y => .scanline ⟨BitVec.ofNat 32 y, p⟩) :
    ∃ rows : List LineBuf, rows.length = n ∧
      records = rows.zipIdx.map fun (pixels, y) => .scanline ⟨BitVec.ofNat 32 y, pixels⟩ := by
  induction n generalizing records with
  | zero => exact ⟨[], rfl, by simpa using h⟩
  | succ n ih =>
    rw [List.range_succ, List.map_append, List.map_singleton, List.map_eq_append_iff] at h
    obtain ⟨init, last, rfl, hinit, hlast⟩ := h
    obtain ⟨r, rfl, hr⟩ := List.map_eq_singleton_iff.1 hlast
    obtain ⟨rows, hlen, rfl⟩ := ih hinit
    obtain ⟨pixels, rfl⟩ := Record.eq_scanline_of_outline hr
    exact ⟨rows ++ [pixels], by simp [hlen], by simp [List.zipIdx_append, hlen]⟩

/-- Once the header is out, OUT ends with it and LINES scanlines, rows in order (43_image_assembler.md R114). -/
theorem State.Inv.out_ends {s : State} (h : s.Inv) (hh : s.hdrSent = true) :
    ∃ (before : List Record) (rows : List LineBuf), rows.length = s.lines.toNat ∧
      s.out = before ++ .header (imageHeader s) ::
        rows.zipIdx.map fun (pixels, y) => .scanline ⟨BitVec.ofNat 32 y, pixels⟩ := by
  obtain ⟨outlines, hout⟩ := h.outOutline hh
  obtain ⟨before, records, hsplit, _, hrecords⟩ := List.map_eq_append_iff.1 hout.symm
  obtain ⟨r, lines, rfl, hr, hlines⟩ := List.map_eq_cons_iff.1 hrecords
  obtain ⟨rows, hlen, rfl⟩ := exists_rows_of_outline (hlines.trans List.map_map)
  rw [Record.eq_header_of_outline hr] at hsplit
  exact ⟨before, rows, hlen, hsplit⟩

/-- Settles O41: the invariant of the DONE state, whose counters say that the whole image is out. -/
theorem doneMeansACompleteImage : Obligations.DoneMeansACompleteImage := by
  unfold Obligations.DoneMeansACompleteImage
  intro s s' h hs hd
  have h' : s'.Inv := h.stepped hs
  have hne : s'.phase ≠ .error := by simp [hd]
  obtain ⟨hh, hstrip, hlines, _, _⟩ := h'.doneComplete hd
  obtain ⟨_, hlen⟩ := h'.started (.inr hd)
  obtain ⟨before, rows, hrows, hout⟩ := h'.out_ends hh
  have hcur : s'.cur.toNat = s'.len.toNat := by rw [h'.curIsStrips hne, hstrip, hlen]
  exact ⟨(h'.noFault hne).1, BitVec.eq_of_toNat_eq hcur, hlen, before, rows, hrows.trans hlines,
    by rw [hout, h'.fits.imageHeader_eq]⟩

end Sys2Proof.Machine
end

section
/-! PROOF. Exceptions (60_exceptions.md). The idea: `step_fault` says once which faults a step can raise, each with its
cause and the state it leaves, and the statements about faults are read off from it. Then ERROR under a step (R146), and
the order of the checks of a CMD write (R145). -/

namespace Sys2Proof.Machine

/-! ### The faults a step raises (R136 to R138) -/

/-- What a step that enters ERROR does, by the fault it raises. -/
inductive FaultEffect (s : State) : State → Prop
  | badLength (hi : s.Issues .start) (hp : s.phase = .idle) (hl : s.len.toNat = 0 ∨ s.len.toNat % 256 ≠ 0) :
      FaultEffect s (raiseFault .invalidInputSize (encode .start) s.tick)
  | truncated {cur : Word} (hi : s.Issues .readStrip) (hq : ¬OutOfSequence .readStrip s)
      (ht : srcTake s.lenBits s.src 256 s.cur = .short cur) :
      FaultEffect s (raiseFault .streamTruncation (encode .readStrip) { s.tick with cur := cur, chunkValid := false })
  | illegalWord {w : OpWord} {e : DecodeError} (hn : ¬(s.phase = .run ∧ s.auto = true)) (hw : s.HostIssues w)
      (hd : decode w = .error e) : FaultEffect s (raiseFault .illegalOperation w s.tick)
  | outOfSequence {i : Instr} (hi : s.Issues i) (ho : OutOfSequence i s) :
      FaultEffect s (raiseFault .sequenceError (encode i) s.tick)
  | portTaken {w : OpWord} (hp : s.phase = .run) (ha : s.auto = true) (hw : s.HostIssues w) :
      FaultEffect s (raiseFault .sequenceError w s.tick)
  | configBusy {off : Nat} {v : Word} {rest : List Input} (hp : s.phase = .run ∨ s.phase = .done)
      (hi : s.inputs = .write off v :: rest) (hoff : off ≤ 0x05) :
      FaultEffect s (raiseFault .configWriteWhileBusy (BitVec.ofNat 16 off) s.tick)

/-- No rule of R138 reads the script. -/
theorem outOfSequence_tick {i : Instr} {s : State} : OutOfSequence i s.tick ↔ OutOfSequence i s := by cases i <;> rfl

/-- The faults of the operation issued. -/
theorem State.Issues.fault {i : Instr} {s t : State} (hi : s.Issues i) (hx : exec i s.tick = .next t)
    (hp : s.phase ≠ .error) (ht : t.phase = .error) : FaultEffect s t := by
  rcases exec_cases hx with ⟨he, _⟩ | ⟨_, ho, rfl⟩ | ⟨hg, he⟩
  · exact absurd he hp
  · exact .outOfSequence hi (outOfSequence_tick.1 ho)
  have hq : ¬OutOfSequence i s := mt outOfSequence_tick.2 (he.inSequence hg)
  cases he with
  | badLength hl => exact .badLength hi hg hl
  | truncated _ _ _ _ _ htake => exact .truncated hi hq htake
  | start | finish => contradiction
  | emitHeader | readStrip | decodeSlice | appendSlice | emitScanline => exact absurd ht hp

/-- The faults of a host write. -/
theorem memWrite_fault {off : Nat} {v : Word} {rest : List Input} {s t : State} (hi : s.inputs = .write off v :: rest)
    (hw : memWrite off v s.tick = .next t) (hp : s.phase ≠ .error) (ht : t.phase = .error) : FaultEffect s t := by
  rcases memWrite_cases hw with rfl | hc | ⟨rfl, hc⟩
  · exact absurd ht hp
  · cases hc with
    | busy hoff hbusy => exact .configBusy hbusy hi hoff
    | len | pal | ctrl => exact absurd ht hp
  · have hword : s.HostIssues (v.setWidth 16) := ⟨v, rest, hi, rfl⟩
    cases hc with
    | autoRun hrun ha => exact .portTaken hrun ha hword
    | illegal hn hd => exact .illegalWord hn hword hd
    | ignored => exact absurd ht hp
    | runs hn hd hx => exact State.Issues.fault (.inl ⟨hn, _, hword, hd⟩) hx hp ht

/-- All the faults one step can raise. -/
theorem step_fault {s t : State} (h : step s = .next t) (hp : s.phase ≠ .error) (ht : t.phase = .error) :
    FaultEffect s t := by
  rcases step_cases h with ⟨rfl, _⟩ | ⟨ha, hi, hx⟩ | ⟨_, _, _, rfl⟩ | ⟨_, _, _, hi, hw⟩ | ⟨_, _, _, rfl⟩
  · exact absurd ht hp
  · obtain ⟨hrun, hauto⟩ := autoRun_iff.1 ha
    exact State.Issues.fault (.inr ⟨hrun, hauto, hi, rfl⟩) hx hp ht
  · exact absurd ht hp
  · exact memWrite_fault hi hw hp ht
  · contradiction

/-- Settles O32: a truncated READ_STRIP is the one fault that writes more than fault entry does. -/
theorem faultsArePrecise : Obligations.FaultsArePrecise := by
  unfold Obligations.FaultsArePrecise
  intro s s' hs hp he
  cases step_fault hs hp he with
  | truncated => exact .inr ⟨rfl, rfl⟩
  | badLength | illegalWord | outOfSequence | portTaken | configBusy => exact .inl rfl

/-- Settles O33: one row of the table for each way of `step_fault`; EOS says how many bytes were left. -/
theorem faultsFollowTheTable : Obligations.FaultsFollowTheTable := by
  unfold Obligations.FaultsFollowTheTable
  intro s s' hs hp he
  cases step_fault hs hp he with
  | badLength hi hidle hl => exact .inl ⟨rfl, rfl, hi, hidle, hl⟩
  | truncated hi hq ht =>
    exact .inr (.inl ⟨rfl, rfl, hi, hq, srcTake_short_lt ht, rfl, srcTake_short_length ht⟩)
  | illegalWord hn hw hd => exact .inr (.inr (.inl ⟨rfl, hn, hw, _, hd⟩))
  | outOfSequence hi ho => exact .inr (.inr (.inr (.inl ⟨rfl, .inl ⟨_, hi, ho, rfl⟩⟩)))
  | portTaken hrun ha hw => exact .inr (.inr (.inr (.inl ⟨rfl, .inr ⟨hrun, ha, hw⟩⟩)))
  | configBusy hbusy hi hoff => exact .inr (.inr (.inr (.inr ⟨rfl, hbusy, _, _, _, hi, hoff, rfl⟩)))

/-! ### The sequencer (R138) -/

/-- On the Core's turn the host writes nothing. -/
theorem State.CoreIsNext.not_hostIssues {s : State} (h : s.CoreIsNext) (w : OpWord) : ¬s.HostIssues w := by
  rintro ⟨v, rest, hw, _⟩
  rcases h with hi | ⟨_, hi⟩ <;> exact absurd (hi.symm.trans hw) nofun

/-- In an automatic run the operation issued is in sequence. -/
theorem State.Inv.issued_inSequence {i : Instr} {s : State} (h : s.Inv) (hp : s.phase = .run) (ha : s.auto = true)
    (hi : s.Issues i) : ¬OutOfSequence i s := by
  obtain ⟨t, he⟩ := h.nextOp_ownEffect hp ha
  rw [hi.eq_nextOp hp ha]
  exact he.inSequence (hp.trans (gatePhase_nextOp s).symm)

/-- Settles O43: both faults need a CMD write or an operation out of sequence, and neither happens on the Core's turn of
an automatic run. -/
theorem sequencerNeverOutOfSequence : Obligations.SequencerNeverOutOfSequence := by
  unfold Obligations.SequencerNeverOutOfSequence
  intro s s' h hp ha hcore hs
  by_cases he : s'.phase = .error
  · cases step_fault hs (by simp [hp]) he with
    | illegalWord _ hw => exact absurd hw (hcore.not_hostIssues _)
    | portTaken _ _ hw => exact absurd hw (hcore.not_hostIssues _)
    | outOfSequence hi ho => exact absurd ho (h.issued_inSequence hp ha hi)
    | badLength | truncated | configBusy => exact ⟨nofun, nofun⟩
  · simp [((h.stepped hs).noFault he).1]

/-! ### ERROR is kept until reset (R146) -/

/-- Settles O34: in ERROR no write and no turn of the Core has an effect. -/
theorem errorIsStickyUntilReset : Obligations.ErrorIsStickyUntilReset := by
  unfold Obligations.ErrorIsStickyUntilReset
  intro s s' he hs hnr
  rcases step_cases hs with ⟨rfl, _⟩ | ⟨ha, _⟩ | ⟨_, _, _, rfl⟩ | ⟨off, v, _, _, hw⟩ | ⟨_, _, hi, _⟩
  · rfl
  · exact absurd ((autoRun_iff.1 ha).1.symm.trans he) nofun
  · rfl
  · rw [memWrite_in_error (s := s.tick) he] at hw
    cases hw
    rfl
  · exact absurd hi (hnr _ _)

/-! ### The order of the checks of a CMD write (R145) -/

/-- A legal word out of sequence raises SEQUENCE_ERROR with that word. -/
theorem cmdWrite_outOfSequence {s : State} {w : OpWord} {i : Instr} (he : s.phase ≠ .error)
    (hn : ¬(s.phase = .run ∧ s.auto = true)) (hd : decode w = .ok i) (ho : OutOfSequence i s) :
    cmdWrite w s = .next (raiseFault .sequenceError w s) := by
  rw [cmdWrite_legal hn hd, exec_of_outOfSequence he ho, ← eq_encode_of_decode hd]

/-- A word that is no operation's raises ILLEGAL_OPERATION. -/
theorem cmdWrite_raises_illegal {s : State} {w : OpWord} (he : s.phase ≠ .error)
    (hn : ¬(s.phase = .run ∧ s.auto = true)) (hw : ∀ i, decode w ≠ .ok i) :
    cmdWrite w s = .next (raiseFault .illegalOperation w s) := by
  cases hd : decode w with
  | ok i => exact absurd hd (hw i)
  | error e => rw [cmdWrite_illegal hn hd, illegalWord_raises he]

/-- Settles O35: the gate comes before an operation's preconditions, and each precondition is a clause of
`OutOfSequence`. -/
theorem firstFailingCheckWins : Obligations.FirstFailingCheckWins := by
  unfold Obligations.FirstFailingCheckWins
  intro s w
  refine ⟨fun he => cmdWrite_in_error he w, fun hp ha => cmdWrite_autoRun hp ha w, fun hp hw => ?_, fun hp ⟨i, hd⟩ => ?_,
    fun hp ⟨i, hd⟩ hne => ?_, fun hp ha => ?_, fun hp ha hs _ => ?_⟩
  · rcases hp with hp | hp | ⟨hp, ha⟩ <;> exact cmdWrite_raises_illegal (by simp [hp]) (by simp [*]) hw
  · have hg : s.phase ≠ gatePhase i := by cases i <;> simp [gatePhase, hp]
    exact cmdWrite_outOfSequence (by simp [hp]) (by simp [hp]) hd (outOfSequence_of_phase hg)
  · have hi : i ≠ .start := by
      rintro rfl
      exact hne (word_of_decode_start hd)
    have hg : s.phase ≠ gatePhase i := by simp [gatePhase_of_ne_start hi, hp]
    exact cmdWrite_outOfSequence (by simp [hp]) (by simp [hp]) hd (outOfSequence_of_phase hg)
  · exact cmdWrite_outOfSequence (i := .start) (by simp [hp]) (by simp [ha]) rfl (by simp [OutOfSequence, hp])
  · exact cmdWrite_outOfSequence (i := .readStrip) (by simp [hp]) (by simp [ha]) rfl (.inr (.inr (.inl hs)))

end Sys2Proof.Machine
end

section
/-! PROOF. LEN, the palette and CTRL outside IDLE (70_reset_and_hazards.md R160). The idea: no operation writes them in
any phase, a host write to them needs IDLE (44_control.md R127, R129), and nothing else but reset does. -/

namespace Sys2Proof.Machine

/-- No operation touches LEN, the palette or CTRL, whether it runs or faults. -/
theorem exec_keepsConfiguration {i : Instr} {s t : State} (hx : exec i s = .next t) :
    t.len = s.len ∧ t.pal = s.pal ∧ t.auto = s.auto := by
  rcases exec_cases hx with ⟨_, rfl⟩ | ⟨_, _, rfl⟩ | ⟨_, he⟩
  · exact ⟨rfl, rfl, rfl⟩
  · exact ⟨rfl, rfl, rfl⟩
  cases he with
  | start | badLength | emitHeader | readStrip | truncated | decodeSlice | appendSlice | emitScanline | finish =>
    exact ⟨rfl, rfl, rfl⟩

/-- Outside IDLE a configuration write only raises a fault. -/
theorem ConfigEffect.keepsConfiguration {off : Nat} {v : Word} {s t : State} (h : ConfigEffect off v s t)
    (hp : s.phase ≠ .idle) : t.len = s.len ∧ t.pal = s.pal ∧ t.auto = s.auto := by
  cases h with
  | len _ hidle | pal _ _ hidle | ctrl _ hidle => exact absurd hidle hp
  | busy => exact ⟨rfl, rfl, rfl⟩

/-- Settles O36: only a configuration write in IDLE and reset write LEN, the palette or CTRL. -/
theorem configurationIsFrozenOutsideIdle : Obligations.ConfigurationIsFrozenOutsideIdle := by
  unfold Obligations.ConfigurationIsFrozenOutsideIdle
  intro s s' hs hp hnr
  cases step_effect hs with
  | waits | reads | refuses => exact ⟨rfl, rfl, rfl⟩
  | configures hc => exact hc.keepsConfiguration hp
  | operates _ hx => exact exec_keepsConfiguration (s := s.tick) hx
  | resets hi => exact absurd hi (hnr _ _)

end Sys2Proof.Machine
end
